-- ==== Sys2Proof/Word.lean ====
section
/-! DEFINITION. The two word types of the machine (00_scope.md R6; 10_state.md R22, R25). -/

namespace Sys2Proof

/-- A byte: a register, a memory cell, an opcode or operand byte. Bit 7 is the most significant (R6, R7). -/
abbrev Byte := BitVec 8

/-- The program counter's 9 bits (R25; decision D2, log 2). -/
abbrev PcWord := BitVec 9

/-- An index of the register file, 0 to 7 (R21). -/
abbrev RegIdx := Fin 8

end Sys2Proof
end

