-- ==== Sys2Proof/Config.lean ====
section
/-! DEFINITION. The parameters of the machine with the values this hardware takes (00_scope.md R5). The opcode map `OPC`
is the parameter `opc` of Decode.lean. CMP_CLEARS_OTHERS is fixed to false by decision D12 and has no field (log 9). -/

namespace Sys2Proof.Config

/-- MEM_SIZE: the number of memory cells; the valid addresses are the numbers below it (R50). -/
abbrev memSize : Nat := 256

/-- NREG: the number of registers (R21). -/
abbrev numRegs : Nat := 8

/-- SP_INDEX: the register that is the stack pointer (R24). -/
abbrev spIndex : RegIdx := 7

/-- SP_RESET (R24, stated). -/
def spReset : Byte := 0xF4

/-- PC_RESET (R25, stated). -/
def pcReset : PcWord := 0

/-- GPR_RESET: registers 0 to 6 after reset. DESIGN CHOICE of the spec (D4), log 4, unsafe. -/
def gprReset : Byte := 0x00

/-- FLAG_RESET: each flag after reset. Forced for `equal`, DESIGN CHOICE of the spec for the other two (D5), log 4. -/
def flagReset : Bool := false

/-- MEM_RESET: every memory cell after reset, and so what an unlisted address reads as (R35, stated). -/
abbrev memReset : Byte := 0x00

/-- IMAGE_MAX: the longest image the host may stage. DESIGN CHOICE of the spec (D14), log 11. -/
abbrev imageMax : Nat := 256

end Sys2Proof.Config
end

