-- ==== Sys2Proof/Machine/State.lean ====
section
/-! DEFINITION. The state of the machine: the ten items of 10_state.md R20 and nothing else, as plain data, and its value
after reset (10_state.md R40; 70_reset_and_hazards.md R210). -/

namespace Sys2Proof.Machine

/-- Memory as the list of its cells that differ from the reset value 0x00, addresses strictly rising (`Memory.wf` in Ops.lean);
an unlisted address reads as 0x00 (R35). -/
abbrev Memory := List Host.Cell

/-- The three independent flags: `e` is `FL.E` (equal), `l` is `FL.L` (less-than), `g` is `FL.G` (greater-than) (R28). No packed
layout exists (decision D24). -/
structure Flags where
  e : Bool
  l : Bool
  g : Bool
  deriving DecidableEq, Repr

/-- `RUN`, the engine's state (R31). -/
inductive RunState where
  | running
  | halted
  deriving DecidableEq, Repr

/-- `CAUSE`, why the engine halted (R32; 60_exceptions.md R180). `unsupportedOperationError` keeps its name and no rule raises it
(R184, decision D20, log 14). -/
inductive Cause where
  | none
  | hlt
  | addressError
  | registerError
  | unsupportedOperationError
  | unknownInstructionError
  deriving DecidableEq, Repr

/-- `DIAG`, the halt record: each field a number or none (R33; layout decision D10, log 7). -/
structure Diag where
  pc     : Option PcWord
  opcode : Option Byte
  opa    : Option Byte
  opb    : Option Byte
  info   : Option Nat
  deriving DecidableEq, Repr

/-- The record while the machine runs: every field none (R33). -/
def Diag.empty : Diag := { pc := none, opcode := none, opa := none, opb := none, info := none }

/-- The whole state of the machine (R20). -/
structure State where
  /-- The registers `x[0]` to `x[7]`; `x[7]` is the stack pointer (R21, R24). -/
  x     : Vector Byte 8
  /-- The program counter (R25). -/
  pc    : PcWord
  /-- The flags (R28). -/
  fl    : Flags
  /-- The memory cells `M[0]` to `M[255]` (R35). -/
  mem   : Memory
  /-- `RUN` (R31). -/
  run   : RunState
  /-- `CAUSE` (R32). -/
  cause : Cause
  /-- `DIAG` (R33). -/
  diag  : Diag
  /-- `OUT`, the bytes emitted so far, oldest first (R34). -/
  out   : List Byte
  deriving DecidableEq, Repr

/-- Why a step does not happen. The four errors of the spec are NOT here: their entry is a next state (60_exceptions.md R190). -/
inductive Fault where
  /-- Raised by `step` alone, in a state with `RUN = Halted`: the machine has no step there (40_execution_cycle.md R100), a stuck
  state. Safe: the hardware does not go on either (log 12). -/
  | halted
  deriving DecidableEq, Repr

/-- Why the model gives no next state. No instruction's meaning raises one. -/
inductive Refusal where
  /-- An instruction without a meaning yet; raised by no arm of `exec`, since every instruction has its meaning. Safe. -/
  | notModelled (mnemonic : String)
  /-- Raised by the host operation `stageImage` for an image of more than 256 bytes (70_reset_and_hazards.md R213, decision
  D14). Safe: the launch is refused (log 11). -/
  | imageTooLong (length : Nat)
  deriving DecidableEq, Repr

/-- What a step, a meaning or a host operation answers. -/
abbrev Result := Host.Outcome State Fault Refusal

/-- The machine right after reset (R40, R210): memory zero, `SP = 0xF4`, `pc = 0`, `RUN = Running`, the rest as log 4 and log 7
name it. -/
def State.reset : State where
  x     := (Vector.replicate 8 Config.gprReset).set 7 Config.spReset
  pc    := Config.pcReset
  fl    := { e := Config.flagReset, l := Config.flagReset, g := Config.flagReset }
  mem   := []
  run   := .running
  cause := .none
  diag  := Diag.empty
  out   := []

end Sys2Proof.Machine
end

