-- ==== Sys2Proof/Machine/Flags.lean ====
section
/-! DEFINITION. The one flag computation of the machine (42_alu.md R137, R138). -/

namespace Sys2Proof.Machine

/-- COMPARE: exactly one flag is set, by unsigned comparison of the first operand with the second; the other two keep what they
hold, and no flag is ever cleared (R134, R137; decisions D12, D23, log 9, log 15). -/
def Flags.compare (f : Flags) (a b : Byte) : Flags :=
  if a.toNat = b.toNat then { f with e := true }
  else if a.toNat < b.toNat then { f with l := true }
  else { f with g := true }

end Sys2Proof.Machine
end

