-- ==== Sys2Proof/Syntax.lean ====
section
/-! DEFINITION. The instructions: one constructor per row of the opcode table (30_encoding.md R81, R86). A register operand
is the WHOLE operand byte (R85), so an index of 8 or more can be written down; it is no well-formed instruction
(WellFormed.lean) and running it raises RegisterError. -/

namespace Sys2Proof

/-- The thirteen mnemonics, in the order of the source's table (R86). -/
inductive Opcode where
  | hlt | ldi | prn | add | mult | cmp | push | pop | call | ret | jmp | jeq | jne
  deriving DecidableEq, Repr

/-- An instruction with its operand bytes `opa` and `opb` (R81). -/
inductive Instr where
  /-- HLT, format Z (R121). -/
  | hlt
  /-- LDI a, imm, format RI: `opb` is an immediate byte (R122). -/
  | ldi (opa opb : Byte)
  /-- PRN a, format R (R123). -/
  | prn (opa : Byte)
  /-- ADD a, b, format RR (R135). -/
  | add (opa opb : Byte)
  /-- MULT a, b, format RR (R136). -/
  | mult (opa opb : Byte)
  /-- CMP a, b, format RR (R137). -/
  | cmp (opa opb : Byte)
  /-- PUSH a, format R (R151). -/
  | push (opa : Byte)
  /-- POP a, format R (R152). -/
  | pop (opa : Byte)
  /-- CALL a, format R (R161). -/
  | call (opa : Byte)
  /-- RET, format Z (R162). -/
  | ret
  /-- JMP a, format R (R163). -/
  | jmp (opa : Byte)
  /-- JEQ a, format R (R164). -/
  | jeq (opa : Byte)
  /-- JNE a, format R (R165). -/
  | jne (opa : Byte)
  deriving DecidableEq, Repr

/-- The mnemonic of an instruction. -/
def Instr.opcode : Instr → Opcode
  | .hlt => .hlt
  | .ldi _ _ => .ldi
  | .prn _ => .prn
  | .add _ _ => .add
  | .mult _ _ => .mult
  | .cmp _ _ => .cmp
  | .push _ => .push
  | .pop _ => .pop
  | .call _ => .call
  | .ret => .ret
  | .jmp _ => .jmp
  | .jeq _ => .jeq
  | .jne _ => .jne

end Sys2Proof
end

