-- ==== Sys2Proof/WellFormed.lean ====
section
/-! DEFINITION. Well-formed instructions: every register operand names a register (30_encoding.md R85; 10_state.md R23).
The immediate of LDI is never checked (R85, R89). -/

namespace Sys2Proof

/-- The operand bytes that name registers, in the order in which they are validated: `opa` for the formats R, RR and RI, then
`opb` for the format RR only (40_execution_cycle.md R105). -/
def Instr.regOperands : Instr → List Byte
  | .hlt => []
  | .ldi a _ => [a]
  | .prn a => [a]
  | .add a b => [a, b]
  | .mult a b => [a, b]
  | .cmp a b => [a, b]
  | .push a => [a]
  | .pop a => [a]
  | .call a => [a]
  | .ret => []
  | .jmp a => [a]
  | .jeq a => [a]
  | .jne a => [a]

/-- Whether every register operand is one of 0 to 7 (R23, R85). -/
def Instr.wellFormed (i : Instr) : Bool := i.regOperands.all fun b => decide (b.toNat < Config.numRegs)

end Sys2Proof
end

