-- ==== Sys2Proof/Decode.lean ====
section
/-! DEFINITION. The opcode map, the decoder (total on any bytes, refusing by name) and the encoder (30_encoding.md). Both
take the opcode map as an argument, since the spec makes it the parameter `OPC` (R86, decision D1); `decode` and `encode`
use its default `opc`. -/

namespace Sys2Proof

/-- The default opcode map (R86). PRESUMED by the spec itself (decision D1: the byte values are general knowledge, not in the
source), log 1. -/
def opc : Opcode → Byte
  | .hlt => 0b00000001
  | .ldi => 0b10000010
  | .prn => 0b01000111
  | .add => 0b10100000
  | .mult => 0b10100010
  | .cmp => 0b10100111
  | .push => 0b01000101
  | .pop => 0b01000110
  | .call => 0b01010000
  | .ret => 0b00010001
  | .jmp => 0b01010100
  | .jeq => 0b01010101
  | .jne => 0b01010110

/-- All mnemonics, in the order of the table (R86). -/
def Opcode.all : List Opcode :=
  [.hlt, .ldi, .prn, .add, .mult, .cmp, .push, .pop, .call, .ret, .jmp, .jeq, .jne]

/-- The four instruction formats (R81). -/
inductive Format where
  | z | r | rr | ri
  deriving DecidableEq, Repr

/-- The format of each opcode (R81, R86): a fixed property of the opcode, never read from bits of the opcode byte (R87). -/
def Opcode.format : Opcode → Format
  | .hlt => .z
  | .ldi => .ri
  | .prn => .r
  | .add => .rr
  | .mult => .rr
  | .cmp => .rr
  | .push => .r
  | .pop => .r
  | .call => .r
  | .ret => .z
  | .jmp => .r
  | .jeq => .r
  | .jne => .r

/-- The number of operand bytes of a format (R81). -/
def Format.arity : Format → Nat
  | .z => 0
  | .r => 1
  | .rr => 2
  | .ri => 2

/-- The number of operand bytes of an opcode (R80). -/
def Opcode.arity (op : Opcode) : Nat := op.format.arity

/-- How an opcode makes an instruction from its operand bytes: from none, from `opa`, or from `opa` and `opb` (R81). -/
inductive Shape where
  | zero (i : Instr)
  | one (f : Byte → Instr)
  | two (f : Byte → Byte → Instr)

/-- The shape of each opcode (R81, R86). -/
def Opcode.shape : Opcode → Shape
  | .hlt => .zero .hlt
  | .ldi => .two .ldi
  | .prn => .one .prn
  | .add => .two .add
  | .mult => .two .mult
  | .cmp => .two .cmp
  | .push => .one .push
  | .pop => .one .pop
  | .call => .one .call
  | .ret => .zero .ret
  | .jmp => .one .jmp
  | .jeq => .one .jeq
  | .jne => .one .jne

/-- The mnemonic an opcode byte stands for under a map `m`, all eight bits compared; none for an illegal byte (R87, R88). -/
def opcodeOf (m : Opcode → Byte) (b : Byte) : Option Opcode := Opcode.all.find? fun op => m op == b

/-- Why bytes are no instruction. -/
inductive DecodeError where
  /-- There is no opcode byte. -/
  | noOpcode
  /-- The opcode byte is not in the map (R88). -/
  | unknownOpcode (b0 : Byte)
  /-- The first operand byte is missing. -/
  | noFirstOperand (b0 : Byte)
  /-- The second operand byte is missing. -/
  | noSecondOperand (b0 b1 : Byte)
  deriving DecidableEq, Repr

/-- Decoding under a map `m`: the instruction at the front of a list of bytes and the bytes after it (R80, R81, R90). Register
operands are not checked here: that is the next phase of the step (40_execution_cycle.md R105). -/
def decodeWith (m : Opcode → Byte) : List Byte → Except DecodeError (Instr × List Byte)
  | [] => .error .noOpcode
  | b0 :: rest =>
    match opcodeOf m b0 with
    | none => .error (.unknownOpcode b0)
    | some op =>
      match op.shape, rest with
      | .zero i, bs => .ok (i, bs)
      | .one _, [] => .error (.noFirstOperand b0)
      | .one f, a :: bs => .ok (f a, bs)
      | .two _, [] => .error (.noFirstOperand b0)
      | .two _, [a] => .error (.noSecondOperand b0 a)
      | .two f, a :: b :: bs => .ok (f a b, bs)

/-- The decoder of this hardware. -/
def decode : List Byte → Except DecodeError (Instr × List Byte) := decodeWith opc

/-- The operand bytes of an instruction in memory order (R81). -/
def Instr.operands : Instr → List Byte
  | .hlt => []
  | .ldi a b => [a, b]
  | .prn a => [a]
  | .add a b => [a, b]
  | .mult a b => [a, b]
  | .cmp a b => [a, b]
  | .push a => [a]
  | .pop a => [a]
  | .call a => [a]
  | .ret => []
  | .jmp a => [a]
  | .jeq a => [a]
  | .jne a => [a]

/-- Encoding under a map `m`: the opcode byte, then the operand bytes (R58, R80). -/
def encodeWith (m : Opcode → Byte) (i : Instr) : List Byte := m i.opcode :: i.operands

/-- The encoder of this hardware. -/
def encode : Instr → List Byte := encodeWith opc

/-- The three bytes of a table word: bits 7..0 are the first byte, bits 15..8 the second, bits 23..16 the third; the bits from
`nbits` on are 0. -/
def wordBytes (nbits w : Nat) : List Byte :=
  let v := w % 2 ^ nbits
  [BitVec.ofNat 8 v, BitVec.ofNat 8 (v / 256), BitVec.ofNat 8 (v / 65536)]

/-- The instruction the decoder reads from a word numbered as spec/opcode_table.json numbers it. -/
def decodeTableWord (nbits w : Nat) : Option Instr :=
  match decode (wordBytes nbits w) with
  | .ok (i, _) => some i
  | .error _ => none

end Sys2Proof
end

