-- ==== Sys2Proof/Machine/Ops.lean ====
section
/-! DEFINITION. The named operations every rule of the spec is written in (00_scope.md R9), over registers, memory and output;
raising a fault as one shared operation (60_exceptions.md R190); halting; and the frame in which every meaning runs. There is
no return from a fault (R192): the only exit from `Halted` is the host's reset (Boot.lean). -/

namespace Sys2Proof.Machine

/-- `trunc8(v)`: the low 8 bits of a number (R8). -/
def trunc8 (v : Nat) : Byte := BitVec.ofNat 8 v

/-- A byte widened to the 9-bit program counter (R8). -/
def zext9 (b : Byte) : PcWord := b.setWidth 9

/-- `x[r]` (R9, R21). -/
def State.reg (s : State) (r : RegIdx) : Byte := s.x[r.val]

/-- `x[r] <- v` (R9, R22). -/
def State.setReg (s : State) (r : RegIdx) (v : Byte) : State := { s with x := s.x.set r.val v }

/-- The stack pointer `SP = x[7]` (R24). -/
def State.sp (s : State) : Byte := s.reg Config.spIndex

/-- `SP <- v`. -/
def State.setSp (s : State) (v : Byte) : State := s.setReg Config.spIndex v

/-- `SP <- (SP - 1) mod 256` (43_stack.md R150; the wrap is decision D3, log 3). -/
def State.decSp (s : State) : State := s.setSp (s.sp - 1)

/-- `SP <- (SP + 1) mod 256` (R150; log 3). -/
def State.incSp (s : State) : State := s.setSp (s.sp + 1)

/-- `pc <- t` (R9). -/
def State.setPc (s : State) (t : PcWord) : State := { s with pc := t }

/-- The flag register written whole. -/
def State.setFlags (s : State) (f : Flags) : State := { s with fl := f }

/-- `Emit(v)`: append a byte to `OUT` (R34). -/
def State.emit (s : State) (v : Byte) : State := { s with out := s.out ++ [v] }

/-- `M[a]` as raw state: the listed byte, or the reset value 0x00 where the address is not listed (R35). -/
def Memory.read : Memory → Nat → Byte
  | [], _ => Config.memReset
  | (b, w) :: m, a => if a = b then w else Memory.read m a

/-- `M[a] <- v` as raw state; keeps the canonical form, so writing 0x00 takes the entry out. -/
def Memory.write : Memory → Nat → Byte → Memory
  | [], a, v => if v = Config.memReset then [] else [(a, v)]
  | (b, w) :: m, a, v =>
    if a < b then (if v = Config.memReset then (b, w) :: m else (a, v) :: (b, w) :: m)
    else if a = b then (if v = Config.memReset then m else (a, v) :: m)
    else (b, w) :: Memory.write m a v

/-- The canonical form from address `lo` on: addresses strictly rising, all below 256, no entry equal to 0x00. -/
def Memory.wfFrom (lo : Nat) : Memory → Bool
  | [] => true
  | (a, v) :: m =>
    decide (lo ≤ a) && decide (a < Config.memSize) && decide (v ≠ Config.memReset) && Memory.wfFrom (a + 1) m

/-- The canonical form of a memory: equal memories are equal lists, and no cell lies outside the address space (R50). -/
def Memory.wf (m : Memory) : Bool := Memory.wfFrom 0 m

/-- A raised error: its name and the number recorded with it (60_exceptions.md R180, R190). -/
structure Trap where
  cause : Cause
  info  : Nat
  deriving DecidableEq, Repr

/-- `MemRead(a, 1)`, the checked read (20_memory.md R52). -/
def memRead (s : State) (a : Nat) : Except Trap Byte :=
  if a < Config.memSize then .ok (s.mem.read a) else .error ⟨.addressError, a⟩

/-- `MemWrite(a, 1, v)`, the checked write of a value that may be wider than a byte (R53). -/
def memWrite (s : State) (a v : Nat) : Except Trap State :=
  if a < Config.memSize then .ok { s with mem := s.mem.write a (trunc8 v) } else .error ⟨.addressError, a⟩

/-- Stop the engine: `RUN`, `CAUSE` and `DIAG` are written and nothing else. `fetched` are the bytes of the halting instruction
that were fetched and are recorded, opcode byte first (10_state.md R31 to R33). -/
def haltWith (c : Cause) (info : Option Nat) (fetched : List Byte) (s : State) : State :=
  { s with
    run := .halted
    cause := c
    diag := { pc := some s.pc, opcode := fetched[0]?, opa := fetched[1]?, opb := fetched[2]?, info := info } }

/-- `raise E(info)`: fault entry, from the state at the START of the step, so that `x`, `pc`, `FL`, `M` and `OUT` are exactly as
they were (R190; decision D9, log 6). -/
def raise (t : Trap) (fetched : List Byte) (s : State) : State := haltWith t.cause (some t.info) fetched s

/-- The frame of every meaning under an opcode map `m`: run the body of instruction `i` from `s`; if it raises, the instruction is
abandoned and the fault is entered from `s` itself, with the whole instruction fetched (R185, R190). The map enters only through
the opcode byte recorded in `DIAG` (R86). -/
def attempt (m : Opcode → Byte) (i : Instr) (s : State) (body : Except Trap State) : Result :=
  match body with
  | .ok t => .next t
  | .error t => .next (raise t (encodeWith m i) s)

/-- The numeric code of a cause; labels only (R180, decision D10, log 7). -/
def Cause.code : Cause → Option Nat
  | .none => Option.none
  | .hlt => some 0
  | .addressError => some 1
  | .registerError => some 2
  | .unsupportedOperationError => some 3
  | .unknownInstructionError => some 4

end Sys2Proof.Machine
end

