-- ==== Sys2Proof/Machine/Operands.lean ====
section
/-! DEFINITION. The operand forms (30_encoding.md R85): a register operand is a whole byte, validated before any effect of the
instruction (40_execution_cycle.md R105); an immediate is a whole byte, used as it is. There is no other form. -/

namespace Sys2Proof.Machine

/-- `CheckReg(i)`: the register a byte names, or RegisterError with the byte as info (10_state.md R23). -/
def checkReg (b : Byte) : Except Trap RegIdx :=
  if h : b.toNat < 8 then .ok ⟨b.toNat, h⟩ else .error ⟨.registerError, b.toNat⟩

/-- The operand byte that names register `r`. -/
def regByte (r : RegIdx) : Byte := BitVec.ofNat 8 r.val

/-- The body of an instruction with one register operand, run once the operand is validated (R105). -/
def withReg (a : Byte) (body : RegIdx → Except Trap State) : Except Trap State :=
  match checkReg a with
  | .ok r => body r
  | .error t => .error t

/-- The body of an instruction with two register operands, `opa` validated before `opb` (R105; the order is decision D8,
log 6). -/
def withRegs (a b : Byte) (body : RegIdx → RegIdx → Except Trap State) : Except Trap State :=
  withReg a fun ra => withReg b fun rb => body ra rb

end Sys2Proof.Machine
end

