-- ==== Sys2Proof/Machine/Alu.lean ====
section
/-! DEFINITION. The ALU and its instructions ADD, MULT and CMP (42_alu.md). -/

namespace Sys2Proof.Machine

/-- The ALU's operation selector: closed, so that UnsupportedOperationError cannot arise (R130, R131; decision D20, log 14). -/
inductive AluOp where
  | add | multiply | compare
  deriving DecidableEq, Repr

/-- ADD's result: the exact sum reduced modulo 256 (R132). -/
def aluAdd (a b : Byte) : Byte := trunc8 (a.toNat + b.toNat)

/-- MULTIPLY's result: the exact product reduced modulo 256 (R133). -/
def aluMultiply (a b : Byte) : Byte := trunc8 (a.toNat * b.toNat)

/-- The ALU block: ADD and MULTIPLY write `x[a]` and no flag, COMPARE writes one flag and no register; both sources are read before
the destination is written (R130, R135). -/
def alu (op : AluOp) (a b : RegIdx) (s : State) : State :=
  match op with
  | .add => s.setReg a (aluAdd (s.reg a) (s.reg b))
  | .multiply => s.setReg a (aluMultiply (s.reg a) (s.reg b))
  | .compare => s.setFlags (s.fl.compare (s.reg a) (s.reg b))

/-- ADD: `x[opa] <- (x[opa] + x[opb]) mod 256; pc <- pc0 + 3` (R135). -/
def execAddWith (m : Opcode → Byte) (a b : Byte) (s : State) : Result :=
  attempt m (.add a b) s <| withRegs a b fun ra rb => .ok ((alu .add ra rb s).setPc (s.pc + 3))

/-- ADD on this hardware's opcode map (R86). -/
def execAdd (a b : Byte) (s : State) : Result := execAddWith opc a b s

/-- MULT: `x[opa] <- (x[opa] * x[opb]) mod 256; pc <- pc0 + 3` (R136). -/
def execMultWith (m : Opcode → Byte) (a b : Byte) (s : State) : Result :=
  attempt m (.mult a b) s <| withRegs a b fun ra rb => .ok ((alu .multiply ra rb s).setPc (s.pc + 3))

/-- MULT on this hardware's opcode map (R86). -/
def execMult (a b : Byte) (s : State) : Result := execMultWith opc a b s

/-- CMP: one flag set to 1, the other two kept; `pc <- pc0 + 3` (R137). -/
def execCmpWith (m : Opcode → Byte) (a b : Byte) (s : State) : Result :=
  attempt m (.cmp a b) s <| withRegs a b fun ra rb => .ok ((alu .compare ra rb s).setPc (s.pc + 3))

/-- CMP on this hardware's opcode map (R86). -/
def execCmp (a b : Byte) (s : State) : Result := execCmpWith opc a b s

end Sys2Proof.Machine
end

