-- ==== Sys2Proof/Machine/Stack.lean ====
section
/-! DEFINITION. The stack discipline and PUSH and POP (43_stack.md): decrement before store, load before increment. -/

namespace Sys2Proof.Machine

/-- `push(v)`: `SP <- (SP - 1) mod 256`, then `MemWrite(SP, 1, v)`, where `v` is computed in the state after the decrement and may be
wider than a byte (R150, R151, R161). -/
def pushValue (s : State) (v : State → Nat) : Except Trap State :=
  memWrite s.decSp s.decSp.sp.toNat (v s.decSp)

/-- The load of `pop()`: `MemRead(SP, 1)`, before the increment (R150). -/
def loadTop (s : State) : Except Trap Byte := memRead s s.sp.toNat

/-- PUSH: the source register is read after the decrement, so PUSH R7 stores the decremented `SP` (R151; decision D11, log 8). -/
def execPushWith (m : Opcode → Byte) (a : Byte) (s : State) : Result :=
  attempt m (.push a) s <| withReg a fun r =>
    match pushValue s (fun u => (u.reg r).toNat) with
    | .ok t => .ok (t.setPc (s.pc + 2))
    | .error e => .error e

/-- PUSH on this hardware's opcode map (R86). -/
def execPush (a : Byte) (s : State) : Result := execPushWith opc a s

/-- POP: the destination is written first and `SP` incremented after, so POP R7 leaves `M[SP] + 1` (R152; decision D11, log 8). -/
def execPopWith (m : Opcode → Byte) (a : Byte) (s : State) : Result :=
  attempt m (.pop a) s <| withReg a fun r =>
    match loadTop s with
    | .ok v => .ok ((s.setReg r v).incSp.setPc (s.pc + 2))
    | .error e => .error e

/-- POP on this hardware's opcode map (R86). -/
def execPop (a : Byte) (s : State) : Result := execPopWith opc a s

end Sys2Proof.Machine
end

