-- ==== Sys2Proof/Machine/Control.lean ====
section
/-! DEFINITION. Control transfer: CALL, RET, JMP, JEQ and JNE (44_control_transfer.md). Every target is a byte, absolute and
unchecked at the transfer (R160). -/

namespace Sys2Proof.Machine

/-- CALL: push the return address `pc0 + 2` (truncated to a byte by the store, so 0x00 for a CALL at 254), then go to `x[opa]`, read
after the decrement (R161; decisions D11, D18, log 8, log 13). -/
def execCallWith (m : Opcode → Byte) (a : Byte) (s : State) : Result :=
  attempt m (.call a) s <| withReg a fun r =>
    match pushValue s (fun _ => s.pc.toNat + 2) with
    | .ok t => .ok (t.setPc (zext9 (t.reg r)))
    | .error e => .error e

/-- CALL on this hardware's opcode map (R86). -/
def execCall (a : Byte) (s : State) : Result := execCallWith opc a s

/-- RET: `pc` takes the byte at `SP`, zero-extended, then `SP` is incremented (R162). -/
def execRetWith (m : Opcode → Byte) (s : State) : Result :=
  attempt m .ret s <|
    match loadTop s with
    | .ok v => .ok ((s.setPc (zext9 v)).incSp)
    | .error e => .error e

/-- RET on this hardware's opcode map (R86). -/
def execRet (s : State) : Result := execRetWith opc s

/-- The two-way branch of JEQ and JNE: to `x[r]` if taken, else to `pc0 + 2` (R164, R165). -/
def branch (taken : Bool) (r : RegIdx) (s : State) : State :=
  s.setPc (if taken then zext9 (s.reg r) else s.pc + 2)

/-- JMP: `pc <- x[opa]` (R163). -/
def execJmpWith (m : Opcode → Byte) (a : Byte) (s : State) : Result :=
  attempt m (.jmp a) s <| withReg a fun r => .ok (branch true r s)

/-- JMP on this hardware's opcode map (R86). -/
def execJmp (a : Byte) (s : State) : Result := execJmpWith opc a s

/-- JEQ: jump if `FL.E = 1`; the operand is validated whether or not it jumps (R164; decision D7, log 6). -/
def execJeqWith (m : Opcode → Byte) (a : Byte) (s : State) : Result :=
  attempt m (.jeq a) s <| withReg a fun r => .ok (branch s.fl.e r s)

/-- JEQ on this hardware's opcode map (R86). -/
def execJeq (a : Byte) (s : State) : Result := execJeqWith opc a s

/-- JNE: jump if `FL.E = 0`; the operand is validated whether or not it jumps (R165; decision D7, log 6). -/
def execJneWith (m : Opcode → Byte) (a : Byte) (s : State) : Result :=
  attempt m (.jne a) s <| withReg a fun r => .ok (branch (!s.fl.e) r s)

/-- JNE on this hardware's opcode map (R86). -/
def execJne (a : Byte) (s : State) : Result := execJneWith opc a s

end Sys2Proof.Machine
end

