-- ==== Sys2Proof/Machine/System.lean ====
section
/-! DEFINITION. HLT, LDI and PRN (41_system_and_data.md). In every meaning `pc0` of the spec is the `pc` of the state the
meaning is given (40_execution_cycle.md R106). Each instruction has its meaning under an opcode map `m` (the parameter OPC of R86),
and its meaning on this hardware at the default map. -/

namespace Sys2Proof.Machine

/-- HLT: `RUN <- Halted`, `CAUSE <- Hlt`, `DIAG <- (pc0, B0, none, none, none)`; `pc` stays (R121; decision D6, log 5). -/
def execHltWith (m : Opcode → Byte) (s : State) : Result := .next (haltWith .hlt none (encodeWith m .hlt) s)

/-- HLT on this hardware's opcode map (R86). -/
def execHlt (s : State) : Result := execHltWith opc s

/-- LDI: `x[opa] <- opb; pc <- pc0 + 3` (R122). -/
def execLdiWith (m : Opcode → Byte) (a b : Byte) (s : State) : Result :=
  attempt m (.ldi a b) s <| withReg a fun r => .ok ((s.setReg r b).setPc (s.pc + 3))

/-- LDI on this hardware's opcode map (R86). -/
def execLdi (a b : Byte) (s : State) : Result := execLdiWith opc a b s

/-- PRN: `Emit(x[opa]); pc <- pc0 + 2` (R123). -/
def execPrnWith (m : Opcode → Byte) (a : Byte) (s : State) : Result :=
  attempt m (.prn a) s <| withReg a fun r => .ok ((s.emit (s.reg r)).setPc (s.pc + 2))

/-- PRN on this hardware's opcode map (R86). -/
def execPrn (a : Byte) (s : State) : Result := execPrnWith opc a s

end Sys2Proof.Machine
end

