-- ==== Sys2Proof/Machine/Fetch.lean ====
section
/-! DEFINITION. The first three phases of a step: opcode fetch, decode, operand fetch (40_execution_cycle.md R101 to R104). -/

namespace Sys2Proof.Machine

/-- An error raised while fetching: the trap and the bytes fetched before it, for `DIAG` (60_exceptions.md R185). -/
structure FetchTrap where
  trap    : Trap
  fetched : List Byte
  deriving DecidableEq, Repr

/-- The checked read of one instruction byte at address `a`, with the bytes fetched so far (R102, R104). -/
def fetchByte (s : State) (a : Nat) (fetched : List Byte) : Except FetchTrap Byte :=
  match memRead s a with
  | .ok b => .ok b
  | .error t => .error ⟨t, fetched⟩

/-- The operand fetch of a known opcode: as many bytes as its format has, at `pc0 + 1` and `pc0 + 2`, addresses not reduced
(R104). -/
def fetchOperands (s : State) (b0 : Byte) (sh : Shape) : Except FetchTrap Instr :=
  match sh with
  | .zero i => .ok i
  | .one f =>
    match fetchByte s (s.pc.toNat + 1) [b0] with
    | .error t => .error t
    | .ok a => .ok (f a)
  | .two f =>
    match fetchByte s (s.pc.toNat + 1) [b0] with
    | .error t => .error t
    | .ok a =>
      match fetchByte s (s.pc.toNat + 2) [b0, a] with
      | .error t => .error t
      | .ok b => .ok (f a b)

/-- Fetch and decode the instruction at `pc` under an opcode map `m` (R86, R102 to R104). An opcode byte outside the map raises
UnknownInstructionError and no operand byte is fetched (R103). -/
def fetchWith (m : Opcode → Byte) (s : State) : Except FetchTrap Instr :=
  match fetchByte s s.pc.toNat [] with
  | .error t => .error t
  | .ok b0 =>
    match opcodeOf m b0 with
    | none => .error ⟨⟨.unknownInstructionError, b0.toNat⟩, [b0]⟩
    | some op => fetchOperands s b0 op.shape

/-- The fetch of this hardware, at the default map (R86). -/
def fetch (s : State) : Except FetchTrap Instr := fetchWith opc s

/-- The bytes of memory from `pc` on that an instruction can occupy: at most three, none at an address of 256 or more (R10). -/
def codeBytes (s : State) : List Byte :=
  (([0, 1, 2].map (s.pc.toNat + ·)).filter (· < Config.memSize)).map s.mem.read

/-- Write bytes to consecutive cells from address `a` on. -/
def Memory.writeBytes (m : Memory) (a : Nat) : List Byte → Memory
  | [] => m
  | b :: bs => Memory.writeBytes (m.write a b) (a + 1) bs

/-- Lay an instruction's three bytes where the next step fetches: at `pc`, or at address 0, with `pc` moved there, where three bytes
do not fit below address 256. `RUN` is set to `Running`, since a halted machine has no step (log 17). -/
def placeWord (s : State) (bytes : List Byte) : State :=
  let at0 : PcWord := if s.pc.toNat + bytes.length ≤ Config.memSize then s.pc else 0
  { s with pc := at0, run := .running, mem := s.mem.writeBytes at0.toNat bytes }

end Sys2Proof.Machine
end

