-- ==== Sys2Proof/Machine/Step.lean ====
section
/-! DEFINITION. One step of the machine (40_execution_cycle.md R100, R101, R107). -/

namespace Sys2Proof.Machine

/-- One step: enabled exactly when `RUN = Running`. An error of the fetch is entered from the state at the start of the step;
otherwise the fetched instruction runs. -/
def step (s : State) : Host.Outcome State Fault Refusal :=
  match s.run with
  | .halted => .fault .halted
  | .running =>
    match fetch s with
    | .error e => .next (raise e.trap e.fetched s)
    | .ok i => exec i s

/-- `s` with the instruction of a table word stored where the next step fetches (log 17). -/
def State.withFetchWord (s : State) (nbits w : Nat) : State := placeWord s (wordBytes nbits w)

end Sys2Proof.Machine
end

