-- ==== Sys2Proof/Machine/Boot.lean ====
section
/-! DEFINITION. The host's operations (10_state.md R36 to R39; 70_reset_and_hazards.md R210 to R213). Stepping and running are
`step` and `Host.Core.run`. -/

namespace Sys2Proof.Machine

/-- Reset, allowed in any state between steps and the only way out of `Halted`: all state is discarded (R36, R211; decision D15,
log 12). -/
def hostReset (_ : State) : State := State.reset

/-- Image staging: `M[i] <- b[i]` for every byte of an image of at most 256 bytes, nothing else changed; a longer image is refused
(R37, R213; decision D14, log 11). -/
def stageImage (image : List Byte) (s : State) : Result :=
  if image.length ≤ Config.imageMax then .next { s with mem := s.mem.writeBytes 0 image }
  else .refused (.imageTooLong image.length)

/-- The boot sequence up to the engine's first fetch: reset, then staging (R212). -/
def boot (image : List Byte) (s : State) : Result := stageImage image (hostReset s)

/-- What the host reads once the machine has halted: the reason and the diagnostic (R39, R191). -/
def State.report (s : State) : Option (Cause × Diag) :=
  match s.run with
  | .running => none
  | .halted => some (s.cause, s.diag)

end Sys2Proof.Machine
end

