-- ==== Sys2Proof/Machine/Parametric.lean ====
section
/-! DEFINITION. The machine under any opcode map: the spec makes the map the configuration parameter `OPC` and says that every rule
holds for any injective one (30_encoding.md R86; decision D1, log 1). `exec` and `step` are this machine at the default `opc`
(Laws/Exec.lean proves it). -/

namespace Sys2Proof.Machine

/-- The meaning of each instruction under an opcode map. -/
def execWith (m : Opcode → Byte) (i : Instr) (s : State) : Result :=
  match i with
  | .hlt => execHltWith m s
  | .ldi a b => execLdiWith m a b s
  | .prn a => execPrnWith m a s
  | .add a b => execAddWith m a b s
  | .mult a b => execMultWith m a b s
  | .cmp a b => execCmpWith m a b s
  | .push a => execPushWith m a s
  | .pop a => execPopWith m a s
  | .call a => execCallWith m a s
  | .ret => execRetWith m s
  | .jmp a => execJmpWith m a s
  | .jeq a => execJeqWith m a s
  | .jne a => execJneWith m a s

/-- One step under an opcode map (40_execution_cycle.md R100, R107). -/
def stepWith (m : Opcode → Byte) (s : State) : Result :=
  match s.run with
  | .halted => .fault .halted
  | .running =>
    match fetchWith m s with
    | .error e => .next (raise e.trap e.fetched s)
    | .ok i => execWith m i s

end Sys2Proof.Machine
end

