-- ==== Sys2Proof/Safety.lean ====
section
/-! DEFINITION. What counts as a safe run, in the terms statements use: the invariant of the machine, a normal end and a
fatal end, and the vocabulary in which a statement says what an instruction leaves unchanged. -/

namespace Sys2Proof.Machine

/-- Whether a halt record agrees with the cause it stands beside: the tables of 10_state.md R33 and 60_exceptions.md R180, R185.
No record agrees with UnsupportedOperationError, which no rule raises (R184). -/
def Diag.agrees (d : Diag) : Cause → Bool
  | .none => d == Diag.empty
  | .hlt => d.opcode == some (opc .hlt) && d.opa == none && d.opb == none && d.info == none
  | .addressError => d.info == some 256 || d.info == some 257 || d.info == some 258
  | .registerError =>
    d.opcode.isSome && (d.info == d.opa.map BitVec.toNat || d.info == d.opb.map BitVec.toNat)
      && (d.info.any fun n => decide (8 ≤ n) && decide (n < 256))
  | .unsupportedOperationError => false
  | .unknownInstructionError =>
    d.opcode.isSome && d.info == d.opcode.map BitVec.toNat && d.opa == none && d.opb == none

/-- The invariant of the machine: memory canonical and inside the address space (R50), `pc` at most 258 (R25), and `RUN`, `CAUSE`
and `DIAG` telling one story (R31 to R33): no cause and an empty record while running; once halted a cause, a record that
agrees with it, and `DIAG.pc` the address of the halting instruction, which `pc` still holds (R109). -/
abbrev Inv (s : State) : Prop :=
  s.mem.wf = true ∧ s.pc.toNat ≤ 258 ∧ s.diag.agrees s.cause = true ∧
    (s.run = .running → s.cause = .none) ∧
    (s.run = .halted → s.cause ≠ .none ∧ s.diag.pc = some s.pc)

/-- A normal end of a run (R109). -/
abbrev State.endedNormally (s : State) : Prop := s.run = .halted ∧ s.cause = .hlt

/-- A fatal end of a run: `Halted` with one of the four errors (R180, R190). -/
abbrev State.endedFatally (s : State) : Prop := s.run = .halted ∧ s.cause ≠ .hlt ∧ s.cause ≠ .none

/-- The step of `s` fetches the instruction `i`. -/
abbrev fetches (s : State) (i : Instr) : Prop := fetch s = .ok i

/-- The byte `b` is what the machine fetches next in `t`: the opcode fetch reads it, whatever instruction is fetched has it as its
opcode byte, and a running machine's step acts on it, halting with it in the diagnostic where no instruction has it and halting
normally where it is HLT's. -/
def fetchesNext (t : State) (b : Byte) : Prop :=
  fetchByte t t.pc.toNat [] = .ok b ∧
  (∀ i, fetch t = .ok i → opc i.opcode = b) ∧
  (t.run = .running →
    ((∀ op, opc op ≠ b) →
      step t = .next { t with run := .halted, cause := .unknownInstructionError,
                              diag := ⟨some t.pc, some b, none, none, some b.toNat⟩ }) ∧
    (b = opc .hlt →
      step t = .next { t with run := .halted, cause := .hlt, diag := ⟨some t.pc, some b, none, none, none⟩ }))

/-- Every register outside `rs` is unchanged. -/
def sameRegsBut (rs : List RegIdx) (s t : State) : Prop := ∀ r, r ∉ rs → t.reg r = s.reg r

/-- Every byte of memory outside the addresses `as` reads as before. -/
def sameMemBut (as : List Nat) (s t : State) : Prop := ∀ a, a ∉ as → t.mem.read a = s.mem.read a

/-- The control and status state (`RUN`, `CAUSE`, `DIAG`) is unchanged. -/
def sameStatus (s t : State) : Prop := t.run = s.run ∧ t.cause = s.cause ∧ t.diag = s.diag

/-- `pc` moved on by `n` in its 9 bits. After a fetch `pc` is at most 255, so nothing is reduced there (R27; decision D2,
log 2). -/
def advanced (n : Nat) (s t : State) : Prop := t.pc.toNat = (s.pc.toNat + n) % 512

/-- The registers an instruction writes, given as the indices of its operands and the implicit `x[7]` (10_state.md R42). -/
def writtenRegs : Instr → List RegIdx
  | .hlt => []
  | .ldi a _ => [Fin.ofNat 8 a.toNat]
  | .prn _ => []
  | .add a _ => [Fin.ofNat 8 a.toNat]
  | .mult a _ => [Fin.ofNat 8 a.toNat]
  | .cmp _ _ => []
  | .push _ => [7]
  | .pop a => [Fin.ofNat 8 a.toNat, 7]
  | .call _ => [7]
  | .ret => [7]
  | .jmp _ => []
  | .jeq _ => []
  | .jne _ => []

end Sys2Proof.Machine
end

