-- ==== Sys2Proof/Certificates/Slice0/Obligations.lean ====
section
/-! DEFINITION. The statements for the provers, from the numbered rules of the spec. A register operand is written `regByte r`
for a register `r : RegIdx`, so a statement over every `r` is about every operand byte the register file accepts, register 7
among them: that an instruction takes 7 like any other register is decision D11 (log 8). `advanced` is the advance of `pc` in its
9 bits: that `pc` goes past 255 is decision D2 (log 2). "log n" is notes/assumptions/n.md. -/

open Sys2Proof Sys2Proof.Machine

/-! ## Encoding -/

/-- For every injective opcode map (the parameter OPC of R86; its default values are decision D1, log 1) decoding the encoding of
an instruction gives it back, with every operand byte whole (R80, R81, R85) and the bytes after it untouched. -/
def Obligations.DecodeOfEncodeIsTheInstruction : Prop :=
  ∀ m : Opcode → Byte, Function.Injective m → ∀ (i : Instr) (rest : List Byte),
    decodeWith m (encodeWith m i ++ rest) = .ok (i, rest)

/-- The other direction: bytes that decode are exactly the encoding of what they decode to, followed by the rest (R80, R81, R87). -/
def Obligations.DecodedBytesAreTheEncoding : Prop :=
  ∀ (m : Opcode → Byte) (bytes rest : List Byte) (i : Instr),
    decodeWith m bytes = .ok (i, rest) → bytes = encodeWith m i ++ rest

/-- The length of an instruction is one plus the arity of its opcode, which the opcode byte alone decides; with fewer bytes there
is no instruction (R80, R90). The opcode values are decision D1 (log 1). -/
def Obligations.LengthIsFixedByTheOpcodeByte : Prop :=
  ∀ (b0 : Byte) (op : Opcode) (rest : List Byte), opcodeOf opc b0 = some op →
    op.arity ≤ 2 ∧
    (op.arity ≤ rest.length → ∃ i, i.opcode = op ∧ decode (b0 :: rest) = .ok (i, rest.drop op.arity)) ∧
    (rest.length < op.arity → ∃ e, decode (b0 :: rest) = .error e)

/-- A byte is illegal exactly when the map does not hold it, and 243 bytes are (R88). The opcode values are decision D1 (log 1);
that a byte outside the map is illegal, 0x00 among them, is D22 (log 21). -/
def Obligations.IllegalOpcodeBytesAreTheOther243 : Prop :=
  (∀ b : Byte, opcodeOf opc b = none ↔ ∀ op, opc op ≠ b) ∧
    ((List.range 256).filter fun n => (opcodeOf opc (BitVec.ofNat 8 n)).isNone).length = 243

/-- Words written out from the encoding examples of R97, one per format (opcode values: log 1). -/
def Obligations.ExampleWordsDecode : Prop :=
  decode [0b00000001] = .ok (.hlt, []) ∧
  decode [0b10000010, 0b00000000, 0b00001000] = .ok (.ldi 0 8, []) ∧
  decode [0b10100010, 0b00000000, 0b00000001] = .ok (.mult 0 1, []) ∧
  decode [0b01000110, 0b00000001] = .ok (.pop 1, []) ∧
  decode [0b01010110, 0b00000010] = .ok (.jne 2, [])

/-! ## The step -/

/-- When the bytes at `pc` decode to an instruction, a running machine's step is `exec` of it at that state, and nothing is added
around it: the meaning itself moves `pc` (R100, R106; 90_conflicts.md C4). Decisions it also rests on: D1 (log 1), the opcode
values; D7 (log 6), that all operand bytes are fetched before any effect; D17 (log 19), that a step is one instruction. -/
def Obligations.StepRunsTheDecodedInstruction : Prop :=
  ∀ (s : State) (i : Instr) (rest : List Byte), s.run = .running → decode (codeBytes s) = .ok (i, rest) →
    step s = exec i s

/-- A step is enabled exactly when `RUN = Running`; no data and no instruction stops the model otherwise (R100, R106). Decisions
it also rests on: D13 (log 10), that PRN never stalls; D15 (log 12), the stop of a halted machine; D17 (log 19), that a step is
one instruction. -/
def Obligations.StepIsEnabledExactlyWhenRunning : Prop :=
  ∀ s : State, (s.run = .running → ∃ t, step s = .next t) ∧ (s.run = .halted → step s = .fault .halted)

/-- The three ways in which the instruction stream leaves memory, and what each records; they win over RegisterError (R102, R104,
R181, R185, R186). That `pc` is not reduced is decision D2 (log 2), the order is D8 (log 6), the record D10 (log 7). Decisions it
also rests on: D7 (log 6), that operand bytes are fetched by the arity alone, before any effect; D9 (log 6), that nothing else
changes. -/
def Obligations.FetchBeyondMemoryHalts : Prop :=
  ∀ s : State, s.run = .running →
    (256 ≤ s.pc.toNat →
      step s = .next { s with run := .halted, cause := .addressError,
                              diag := ⟨some s.pc, none, none, none, some s.pc.toNat⟩ }) ∧
    (s.pc.toNat = 255 → ∀ op, opcodeOf opc (s.mem.read 255) = some op → 1 ≤ op.arity →
      step s = .next { s with run := .halted, cause := .addressError,
                              diag := ⟨some s.pc, some (s.mem.read 255), none, none, some 256⟩ }) ∧
    (s.pc.toNat = 254 → ∀ op, opcodeOf opc (s.mem.read 254) = some op → op.arity = 2 →
      step s = .next { s with run := .halted, cause := .addressError,
                              diag := ⟨some s.pc, some (s.mem.read 254), some (s.mem.read 255), none, some 256⟩ })

/-- An opcode byte outside the map halts the machine with a diagnostic that holds the byte and its address; `pc` is not advanced and
no further step happens (R183). That the fault changes nothing else is decision D9 (log 6), the record without operand bytes D10
(log 7), the stop of a halted machine D15 (log 12), that every byte outside the map raises this error D22 (log 21); the opcode
values are D1 (log 1). -/
def Obligations.UnknownOpcodeHalts : Prop :=
  ∀ s : State, s.run = .running → s.pc.toNat < 256 → (∀ op, opc op ≠ s.mem.read s.pc.toNat) →
    ∃ t, step s = .next t ∧ step t = .fault .halted ∧
      t = { s with run := .halted, cause := .unknownInstructionError,
                   diag := ⟨some s.pc, some (s.mem.read s.pc.toNat), none, none,
                            some (s.mem.read s.pc.toNat).toNat⟩ }

/-- Every instruction with a register operand of 8 or more halts with RegisterError on the first such operand, and changes nothing
else: a PUSH stores nothing, a branch not taken faults too (R23, R105, R182, R185). Validation before any effect is decision D7,
the order D8, precision D9 (log 6), the record D10 (log 7). Decisions it also rests on: D1 (log 1), the opcode values. -/
def Obligations.RegisterOperandOutOfRangeHalts : Prop :=
  ∀ (i : Instr) (s : State) (b : Byte), (i.regOperands.find? fun c => decide (8 ≤ c.toNat)) = some b →
    exec i s = .next { s with run := .halted, cause := .registerError,
                              diag := ⟨some s.pc, some (opc i.opcode), i.operands[0]?, i.operands[1]?,
                                       some b.toNat⟩ }

/-! ## What each instruction does, and its frame -/

/-- HLT stops the engine, records `(pc0, B0, none, none, none)` and changes nothing else (R121). That `pc` stays is decision D6
(log 5), the record D10 (log 7). Decisions it also rests on: D1 (log 1), the opcode values. -/
def Obligations.HltHaltsNormally : Prop :=
  ∀ s : State, exec .hlt s = .next { s with run := .halted, cause := .hlt,
                                            diag := ⟨some s.pc, some (opc .hlt), none, none, none⟩ }

/-- LDI puts the immediate byte in the register, register 7 too, and advances by 3; nothing else changes (R122). -/
def Obligations.LdiLoadsTheImmediate : Prop :=
  ∀ (s : State) (r : RegIdx) (v : Byte), ∃ t, exec (.ldi (regByte r) v) s = .next t ∧
    t.reg r = v ∧ sameRegsBut [r] s t ∧ advanced 3 s t ∧
    t.fl = s.fl ∧ sameMemBut [] s t ∧ t.out = s.out ∧ sameStatus s t

/-- PRN appends the register's byte to OUT and advances by 2; nothing else changes and it cannot fail (R123; the always-ready sink is
decision D13, log 10). -/
def Obligations.PrnEmitsTheRegister : Prop :=
  ∀ (s : State) (r : RegIdx), ∃ t, exec (.prn (regByte r)) s = .next t ∧
    t.out = s.out ++ [s.reg r] ∧ sameRegsBut [] s t ∧ advanced 2 s t ∧
    t.fl = s.fl ∧ sameMemBut [] s t ∧ sameStatus s t

/-- ADD: the true sum reduced modulo 256, read before written when the registers coincide; no flag and no trap (R132, R135). Register
7 as the destination is decision D11 (log 8), the advance past 255 D2 (log 2). -/
def Obligations.AddWrapsSilently : Prop :=
  ∀ (s : State) (a b : RegIdx), ∃ t, exec (.add (regByte a) (regByte b)) s = .next t ∧
    (t.reg a).toNat = ((s.reg a).toNat + (s.reg b).toNat) % 256 ∧ sameRegsBut [a] s t ∧ advanced 3 s t ∧
    t.fl = s.fl ∧ sameMemBut [] s t ∧ t.out = s.out ∧ sameStatus s t

/-- MULT: the true product reduced modulo 256; no flag and no trap (R133, R136). Register 7 as the destination is decision D11
(log 8), the advance past 255 D2 (log 2). -/
def Obligations.MultKeepsTheLowByte : Prop :=
  ∀ (s : State) (a b : RegIdx), ∃ t, exec (.mult (regByte a) (regByte b)) s = .next t ∧
    (t.reg a).toNat = ((s.reg a).toNat * (s.reg b).toNat) % 256 ∧ sameRegsBut [a] s t ∧ advanced 3 s t ∧
    t.fl = s.fl ∧ sameMemBut [] s t ∧ t.out = s.out ∧ sameStatus s t

/-- The addition law of R132: the result is the true sum modulo 256, the same bits as the signed sum, and the instruction puts it in
its register with no flag written and no trap. Register 7 is not spoken of here: AddWrapsSilently has it, by decision D11 (log 8). -/
def Obligations.SumIsModulo256WithNoFlagAndNoTrap : Prop :=
  (∀ x y : Byte, (aluAdd x y).toNat = (x.toNat + y.toNat) % 256 ∧ aluAdd x y = BitVec.ofInt 8 (x.toInt + y.toInt)) ∧
  (∀ (s : State) (a b : RegIdx), a ≠ 7 → b ≠ 7 → ∃ t, exec (.add (regByte a) (regByte b)) s = .next t ∧
    t.reg a = aluAdd (s.reg a) (s.reg b) ∧ t.fl = s.fl ∧ sameStatus s t) ∧
  (aluAdd 200 100 = 44 ∧ aluAdd 255 1 = 0 ∧ aluAdd 255 255 = 254 ∧ aluAdd 0 0 = 0 ∧ aluAdd 128 128 = 0)

/-- The multiplication law of R133: the result is the true product modulo 256, the low byte of the 16-bit product, and the instruction
puts it in its register with no flag written and no trap; and the machine's operations are the thirteen, none of which divides,
subtracts, shifts or works on bits. Register 7 is not spoken of here: MultKeepsTheLowByte has it, by decision D11 (log 8). -/
def Obligations.ProductIsModulo256WithNoFlagAndNoTrap : Prop :=
  (∀ x y : Byte, (aluMultiply x y).toNat = (x.toNat * y.toNat) % 256 ∧
    aluMultiply x y = (x.setWidth 16 * y.setWidth 16).setWidth 8 ∧
    aluMultiply x 0 = 0 ∧ aluMultiply 0 x = 0 ∧ aluMultiply x 1 = x ∧ aluMultiply 1 x = x) ∧
  (∀ (s : State) (a b : RegIdx), a ≠ 7 → b ≠ 7 → ∃ t, exec (.mult (regByte a) (regByte b)) s = .next t ∧
    t.reg a = aluMultiply (s.reg a) (s.reg b) ∧ t.fl = s.fl ∧ sameStatus s t) ∧
  (aluMultiply 8 9 = 72 ∧ aluMultiply 16 16 = 0 ∧ aluMultiply 255 255 = 1 ∧ aluMultiply 255 2 = 254 ∧
    aluMultiply 128 2 = 0 ∧ aluMultiply 17 15 = 255) ∧
  (∀ op : Opcode,
    op ∈ [.hlt, .ldi, .prn, .add, .mult, .cmp, .push, .pop, .call, .ret, .jmp, .jeq, .jne])

/-- CMP sets exactly the flag of the unsigned relation and keeps the other two; no register changes (R134, R137, R138). Sticky flags:
decision D12 (log 9); which operand is less: D23 (log 15). -/
def Obligations.CmpSetsOneFlagAndKeepsTheRest : Prop :=
  ∀ (s : State) (a b : RegIdx), ∃ t, exec (.cmp (regByte a) (regByte b)) s = .next t ∧
    ((s.reg a).toNat = (s.reg b).toNat → t.fl = ⟨true, s.fl.l, s.fl.g⟩) ∧
    ((s.reg a).toNat < (s.reg b).toNat → t.fl = ⟨s.fl.e, true, s.fl.g⟩) ∧
    ((s.reg b).toNat < (s.reg a).toNat → t.fl = ⟨s.fl.e, s.fl.l, true⟩) ∧
    sameRegsBut [] s t ∧ advanced 3 s t ∧ sameMemBut [] s t ∧ t.out = s.out ∧ sameStatus s t

/-- PUSH: SP goes down by one modulo 256 (decision D3, log 3) and the cell it then names takes the register as it stands after the
decrement, so PUSH R7 stores the new SP (decision D11, log 8); no other cell and no other register changes (R150, R151). Decisions
it also rests on: D21 (log 18), that no stack limit is checked. -/
def Obligations.PushDecrementsThenStores : Prop :=
  ∀ (s : State) (r : RegIdx), ∃ t, exec (.push (regByte r)) s = .next t ∧
    t.sp.toNat = (s.sp.toNat + 255) % 256 ∧ sameRegsBut [7] s t ∧
    (s.mem.wf = true → t.mem.read s.decSp.sp.toNat = if r = 7 then s.decSp.sp else s.reg r) ∧
    sameMemBut [s.decSp.sp.toNat] s t ∧ advanced 2 s t ∧
    t.fl = s.fl ∧ t.out = s.out ∧ sameStatus s t

/-- POP: the register takes the byte at SP, then SP goes up by one modulo 256 (D3, log 3); POP R7 leaves the loaded byte plus one
(D11, log 8). Memory keeps every byte (R150, R152). Decisions it also rests on: D21 (log 18), that no stack limit is checked. -/
def Obligations.PopLoadsThenIncrements : Prop :=
  ∀ (s : State) (r : RegIdx), ∃ t, exec (.pop (regByte r)) s = .next t ∧
    (r ≠ 7 → t.reg r = s.mem.read s.sp.toNat ∧ t.sp.toNat = (s.sp.toNat + 1) % 256) ∧
    (r = 7 → t.sp.toNat = ((s.mem.read s.sp.toNat).toNat + 1) % 256) ∧
    sameRegsBut [r, 7] s t ∧ sameMemBut [] s t ∧ advanced 2 s t ∧
    t.fl = s.fl ∧ t.out = s.out ∧ sameStatus s t

/-- CALL: SP goes down by one, the cell it then names takes `pc0 + 2` truncated to a byte (0x00 for a CALL at 254: D18, log 13),
and `pc` takes the register as it stands after the decrement (CALL R7: D11, log 8); nothing else changes (R161). Decisions it also
rests on: D21 (log 18), that no stack limit is checked. -/
def Obligations.CallPushesTheReturnAddress : Prop :=
  ∀ (s : State) (r : RegIdx), ∃ t, exec (.call (regByte r)) s = .next t ∧
    t.sp.toNat = (s.sp.toNat + 255) % 256 ∧ sameRegsBut [7] s t ∧
    (s.mem.wf = true → (t.mem.read s.decSp.sp.toNat).toNat = (s.pc.toNat + 2) % 256) ∧
    sameMemBut [s.decSp.sp.toNat] s t ∧
    t.pc.toNat = (if r = 7 then s.decSp.sp else s.reg r).toNat ∧
    t.fl = s.fl ∧ t.out = s.out ∧ sameStatus s t

/-- RET: `pc` takes the byte at SP, zero-extended, and SP goes up by one modulo 256; memory keeps every byte (R162; the wrap is
D3, log 3). Decisions it also rests on: D21 (log 18), that no stack limit is checked. -/
def Obligations.RetPopsThePc : Prop :=
  ∀ s : State, ∃ t, exec .ret s = .next t ∧
    t.pc.toNat = (s.mem.read s.sp.toNat).toNat ∧ t.sp.toNat = (s.sp.toNat + 1) % 256 ∧
    sameRegsBut [7] s t ∧ sameMemBut [] s t ∧ t.fl = s.fl ∧ t.out = s.out ∧ sameStatus s t

/-- JMP: `pc` takes the register's byte and nothing but `pc` changes (R160, R163). -/
def Obligations.JmpGoesToTheRegister : Prop :=
  ∀ (s : State) (r : RegIdx), ∃ t, exec (.jmp (regByte r)) s = .next t ∧
    t.pc.toNat = (s.reg r).toNat ∧
    sameRegsBut [] s t ∧ sameMemBut [] s t ∧ t.fl = s.fl ∧ t.out = s.out ∧ sameStatus s t

/-- JEQ jumps when `FL.E = 1` and falls through when it is 0; nothing but `pc` changes (R164, R168). -/
def Obligations.JeqJumpsWhenEqualIsSet : Prop :=
  ∀ (s : State) (r : RegIdx), ∃ t, exec (.jeq (regByte r)) s = .next t ∧
    (s.fl.e = true → t.pc.toNat = (s.reg r).toNat) ∧ (s.fl.e = false → advanced 2 s t) ∧
    sameRegsBut [] s t ∧ sameMemBut [] s t ∧ t.fl = s.fl ∧ t.out = s.out ∧ sameStatus s t

/-- JNE jumps when `FL.E = 0` and falls through when it is 1; nothing but `pc` changes (R165, R168). -/
def Obligations.JneJumpsWhenEqualIsClear : Prop :=
  ∀ (s : State) (r : RegIdx), ∃ t, exec (.jne (regByte r)) s = .next t ∧
    (s.fl.e = false → t.pc.toNat = (s.reg r).toNat) ∧ (s.fl.e = true → advanced 2 s t) ∧
    sameRegsBut [] s t ∧ sameMemBut [] s t ∧ t.fl = s.fl ∧ t.out = s.out ∧ sameStatus s t

/-- The ALU block: ADD and MULTIPLY write the first register and no flag, COMPARE sets one flag and writes no register, and none
of the three touches memory, `pc`, OUT or the status (R130). That COMPARE keeps the other two flags is decision D12 (log 9); the
closed selector of three operations is D20 (log 14). Operand 7 as an ordinary register is D11 (log 8). -/
def Obligations.AluTouchesOnlyItsTarget : Prop :=
  ∀ (op : AluOp) (a b : RegIdx) (s t : State), t = alu op a b s →
    (op = .add → (t.reg a).toNat = ((s.reg a).toNat + (s.reg b).toNat) % 256 ∧ sameRegsBut [a] s t ∧ t.fl = s.fl) ∧
    (op = .multiply →
      (t.reg a).toNat = ((s.reg a).toNat * (s.reg b).toNat) % 256 ∧ sameRegsBut [a] s t ∧ t.fl = s.fl) ∧
    (op = .compare → sameRegsBut [] s t ∧
      (t.fl = ⟨true, s.fl.l, s.fl.g⟩ ∨ t.fl = ⟨s.fl.e, true, s.fl.g⟩ ∨ t.fl = ⟨s.fl.e, s.fl.l, true⟩)) ∧
    sameMemBut [] s t ∧ t.pc = s.pc ∧ t.out = s.out ∧ sameStatus s t

/-! ## Memory -/

/-- The checked read and write: inside 0 to 255 they give and take one byte, a wider value truncated, no other cell and no other
state changed; at 256 or more they raise AddressError with the address (R52, R53). -/
def Obligations.CheckedAccessesReadAndWriteOneByte : Prop :=
  ∀ (s : State) (a v : Nat), s.mem.wf = true →
    (a < 256 → memRead s a = .ok (s.mem.read a) ∧
      ∃ t, memWrite s a v = .ok t ∧ (t.mem.read a).toNat = v % 256 ∧ sameMemBut [a] s t ∧
        t = { s with mem := t.mem } ∧ t.mem.wf = true) ∧
    (256 ≤ a → memRead s a = .error ⟨.addressError, a⟩ ∧ memWrite s a v = .error ⟨.addressError, a⟩)

/-- The canonical form is canonical: two memories that read alike at every address are the same list. -/
def Obligations.CanonicalMemoriesThatReadAlikeAreEqual : Prop :=
  ∀ m n : Memory, m.wf = true → n.wf = true → (∀ a, m.read a = n.read a) → m = n

/-- A step changes a byte of memory only when it runs PUSH or CALL, and only the byte at SP - 1 (R55, R150). Decisions it also
rests on: D3 (log 3), the wrap of SP - 1; D9 (log 6), that a faulting instruction stores nothing. -/
def Obligations.OnlyPushAndCallStore : Prop :=
  ∀ (s t : State) (a : Nat), step s = .next t → t.mem.read a ≠ s.mem.read a →
    a = s.decSp.sp.toNat ∧ ∃ b, fetches s (.push b) ∨ fetches s (.call b)

/-- A byte that PUSH stores where `pc` goes next, and a return address byte that CALL stores at the address it goes to (every CALL
of register 7 does, and any other whose register holds SP - 1), is what the machine fetches next (R63, R217), and it then acts on
it as on any opcode byte (R121, R183). CALL of register 7 is decision D11 (log 8), the truncation of the return address D18 (log
13), the opcode values D1 (log 1). Decisions it also rests on: D3 (log 3), the wrap of SP - 1; D6 (log 5), that HLT keeps pc; D9
(log 6), that the fault of an unknown byte changes nothing else; D10 (log 7), the record in DIAG; D21 (log 18), that no stack
limit is checked; D22 (log 21), that every byte outside the map faults. -/
def Obligations.StoredByteIsFetchedNext : Prop :=
  ∀ (s : State) (r : RegIdx), s.mem.wf = true →
    (∃ t, exec (.push (regByte r)) s = .next t ∧
      (∀ bs, fetchByte t s.decSp.sp.toNat bs = .ok (t.reg r)) ∧
      (s.decSp.sp.toNat = s.pc.toNat + 2 → fetchesNext t (t.reg r))) ∧
    (∃ t, exec (.call (regByte r)) s = .next t ∧
      (∀ bs, fetchByte t s.decSp.sp.toNat bs = .ok (BitVec.ofNat 8 (s.pc.toNat + 2))) ∧
      ((if r = 7 then s.decSp.sp else s.reg r) = s.decSp.sp →
        fetchesNext t (BitVec.ofNat 8 (s.pc.toNat + 2))))

/-! ## Whole-machine rules -/

/-- Flags are never cleared: over any number of steps from any state a flag that is 1 stays 1, and compares with different
outcomes leave more than one flag at 1 (R30; sticky flags are decision D12, log 9). Decisions it also rests on: D9 (log 6), that a
fault leaves the flags. -/
def Obligations.FlagsAreNeverCleared : Prop :=
  (∀ (n : Nat) (s t : State), Host.Core.run Sys2Proof.core n s = .next t →
    (s.fl.e = true → t.fl.e = true) ∧ (s.fl.l = true → t.fl.l = true) ∧ (s.fl.g = true → t.fl.g = true)) ∧
  (∀ (s t u : State) (a b : RegIdx), (s.reg a).toNat < (s.reg b).toNat →
    exec (.cmp (regByte a) (regByte b)) s = .next t → exec (.cmp (regByte b) (regByte a)) t = .next u →
    u.fl = ⟨s.fl.e, true, true⟩)

/-- Flags are written only by CMP, one at a time and to 1, and read only by JEQ and JNE, which read `FL.E` alone: any other
instruction does the same to everything else whatever the flags hold (R29). That CMP keeps the two flags it does not set is
decision D12 (log 9). Decisions it also rests on: D9 (log 6), that a fault leaves the flags. -/
def Obligations.FlagsAreWrittenByCmpAndReadByBranches : Prop :=
  (∀ (i : Instr) (s t : State), exec i s = .next t → t.fl ≠ s.fl →
    i.opcode = .cmp ∧
      (t.fl = ⟨true, s.fl.l, s.fl.g⟩ ∨ t.fl = ⟨s.fl.e, true, s.fl.g⟩ ∨ t.fl = ⟨s.fl.e, s.fl.l, true⟩)) ∧
  (∀ (i : Instr) (s t : State) (f : Flags), i.opcode ≠ .jeq → i.opcode ≠ .jne → exec i s = .next t →
    ∃ u, exec i (s.setFlags f) = .next u ∧ u.setFlags t.fl = t) ∧
  (∀ (i : Instr) (s t : State) (f : Flags), i.opcode = .jeq ∨ i.opcode = .jne → f.e = s.fl.e → exec i s = .next t →
    exec i (s.setFlags f) = .next (t.setFlags f))

/-- OUT only grows, by one byte, and only when PRN runs (R34). The form of the output is decision D13 (log 10). Decisions it also
rests on: D9 (log 6), that a faulting PRN emits nothing. -/
def Obligations.OnlyPrnAppendsToOut : Prop :=
  ∀ s t : State, step s = .next t →
    t.out = s.out ∨ ∃ r : RegIdx, fetches s (.prn (regByte r)) ∧ t.out = s.out ++ [s.reg r]

/-- No instruction reads OUT, CAUSE or DIAG: a step from a state that differs in them alone does the same to everything else and
emits the same bytes (R34, R41). Decisions it also rests on: D10 (log 7), the record in DIAG; D13 (log 10), the form of the
output. -/
def Obligations.OutputAndDiagnosticAreNeverRead : Prop :=
  ∀ (s t : State) (o : List Byte) (c : Cause) (d : Diag), step s = .next t →
    ∃ u l, step { s with out := o, cause := c, diag := d } = .next u ∧
      t.out = s.out ++ l ∧ u.out = o ++ l ∧
      u.x = t.x ∧ u.pc = t.pc ∧ u.fl = t.fl ∧ u.mem = t.mem ∧ u.run = t.run

/-- How a step can end: the machine still runs and its status is untouched; or the instruction was HLT; or one of the three errors
that can be raised was, and then nothing but RUN, CAUSE and DIAG changed (R31, R184, R190). Precision is decision D9 (log 6).
Decisions it also rests on: D6 (log 5), that HLT keeps pc; D10 (log 7), the record in DIAG; D20 (log 14), that the fourth error is
raised by nothing. -/
def Obligations.StepHaltsOnlyByHltOrPreciseFault : Prop :=
  ∀ s t : State, step s = .next t →
    (t.run = .running ∧ t.cause = s.cause ∧ t.diag = s.diag) ∨
    (fetches s .hlt ∧ t = { s with run := .halted, cause := .hlt, diag := t.diag }) ∨
    ((t.cause = .addressError ∨ t.cause = .registerError ∨ t.cause = .unknownInstructionError) ∧
      t.diag.pc = some s.pc ∧ t = { s with run := .halted, cause := t.cause, diag := t.diag })

/-- `Halted` is terminal, whether reached by HLT or by a fault: a run that has reached it takes no further step, so no second fault
occurs, and the exit, reset, discards all state (R192). The stop 'halted' and reset as the only exit are decision D15 (log 12). -/
def Obligations.HaltedIsTerminal : Prop :=
  ∀ (n k : Nat) (s t : State), Host.Core.run Sys2Proof.core n s = .next t → t.run = .halted →
    Host.Core.run Sys2Proof.core (n + k + 1) s = .fault .halted ∧ hostReset t = State.reset

/-- An instruction writes no register outside its row of the table of R42, on any operand byte and whether or not it faults.
Decisions it also rests on: D9 (log 6), that a fault writes no register; D11 (log 8), operand 7 as an ordinary register. -/
def Obligations.RegistersWrittenAsTheTableSays : Prop :=
  ∀ (i : Instr) (s t : State), exec i s = .next t → sameRegsBut (writtenRegs i) s t

/-! ## Stack and call laws -/

/-- PUSH Ra then POP Rb, for a and b other than 7: Rb gets what Ra held, SP is back, and one memory cell changed (R153). Decisions
it also rests on: D3 (log 3), the wrap of SP; D21 (log 18), that no stack limit is checked. -/
def Obligations.PushThenPopIsARoundTrip : Prop :=
  ∀ (s : State) (a b : RegIdx), s.mem.wf = true → a ≠ 7 → b ≠ 7 →
    ∃ t u, exec (.push (regByte a)) s = .next t ∧ exec (.pop (regByte b)) t = .next u ∧
      u.reg b = s.reg a ∧ sameRegsBut [b] s u ∧
      u.mem.read s.decSp.sp.toNat = s.reg a ∧ sameMemBut [s.decSp.sp.toNat] s u

/-- PUSH Ra; PUSH Rb; POP Rc; POP Rd, for indices other than 7 and c other than d: last in, first out (R153). Decisions it also
rests on: D3 (log 3), the wrap of SP; D21 (log 18), that no stack limit is checked. -/
def Obligations.StackIsLastInFirstOut : Prop :=
  ∀ (s : State) (a b c d : RegIdx), s.mem.wf = true → a ≠ 7 → b ≠ 7 → c ≠ 7 → d ≠ 7 → c ≠ d →
    ∃ t1 t2 t3 t4, exec (.push (regByte a)) s = .next t1 ∧ exec (.push (regByte b)) t1 = .next t2 ∧
      exec (.pop (regByte c)) t2 = .next t3 ∧ exec (.pop (regByte d)) t3 = .next t4 ∧
      t4.reg c = s.reg b ∧ t4.reg d = s.reg a ∧ t4.sp = s.sp

/-- A CALL at `pc0 <= 253` and a later RET with the same SP over the same stored byte return to `pc0 + 2` with SP as before the
CALL, whatever else changed in between (R166). Decisions it also rests on: D3 (log 3), the wrap of SP; D11 (log 8), CALL of
register 7; D21 (log 18), that no stack limit is checked. -/
def Obligations.RetReturnsPastTheCall : Prop :=
  ∀ (s : State) (r : RegIdx), s.mem.wf = true → s.pc.toNat ≤ 253 →
    ∃ t, exec (.call (regByte r)) s = .next t ∧
      ∀ u : State, u.sp = t.sp → u.mem.read u.sp.toNat = t.mem.read t.sp.toNat →
        ∃ v, exec .ret u = .next v ∧ v.pc.toNat = s.pc.toNat + 2 ∧ v.sp = s.sp

/-! ## Reset, boot and the invariant -/

/-- The values after reset (R40, R210). Memory, x[7], pc and RUN are stated by the source; x[0] to x[6] are decision D4 and the
flags D5 (log 4), CAUSE and DIAG D10 (log 7): the model's choices, as the spec's table marks them. Decisions it also rests on: D15
(log 12), that reset is possible in any state. -/
def Obligations.ResetLeavesTheTableOfValues : Prop :=
  ∀ s : State, (∀ a, (hostReset s).mem.read a = 0) ∧ (hostReset s).reg 7 = 0xF4 ∧
    (∀ r : RegIdx, r ≠ 7 → (hostReset s).reg r = 0) ∧ (hostReset s).pc = 0 ∧
    (hostReset s).fl = ⟨false, false, false⟩ ∧ (hostReset s).run = .running ∧ (hostReset s).cause = .none ∧
    (hostReset s).diag = ⟨none, none, none, none, none⟩ ∧ (hostReset s).out = []

/-- Boot: an image of at most 256 bytes stands in memory from address 0, the other cells are zero and everything else is as after
reset; a longer image is refused (R212, R213; decision D14, log 11). Decisions it also rests on: D4 (log 4), the reset values of
registers 0 to 6; D5 (log 4), those of the flags; D10 (log 7), those of CAUSE and DIAG. -/
def Obligations.BootStagesTheImage : Prop :=
  ∀ (image : List Byte) (s : State),
    (image.length ≤ 256 → ∃ t, boot image s = .next t ∧
      (∀ i (h : i < image.length), t.mem.read i = image[i]) ∧
      (∀ i, image.length ≤ i → t.mem.read i = 0) ∧
      t = { State.reset with mem := t.mem }) ∧
    (256 < image.length → boot image s = .refused (.imageTooLong image.length))

/-- The invariant holds after reset. Decisions it also rests on: D10 (log 7), CAUSE and DIAG at reset. -/
def Obligations.InvariantHoldsAtReset : Prop := Inv State.reset

/-- Every step keeps the invariant, from every state that has it: canonical memory, `pc` at most 258, and RUN, CAUSE and DIAG in
agreement with the tables of R33 and R185 (R25, R31 to R33, R50, R184). Decisions it also rests on: D2 (log 2), the 9 bits of pc;
D6 (log 5), that HLT keeps pc; D9 (log 6), that a fault changes nothing else; D10 (log 7), CAUSE and the record in DIAG; D20 (log
14), that the fourth error is raised by nothing. -/
def Obligations.EveryStepKeepsTheInvariant : Prop :=
  ∀ s t : State, Inv s → step s = .next t → Inv t

/-- From any image of at most 256 bytes, after any number of steps the machine is in a state with the invariant or has halted: no
run is refused and none stops in another way (R108 to R110). Decisions it also rests on: D2 (log 2), the 9 bits of pc; D6 (log 5),
that HLT keeps pc; D9 (log 6), that a fault changes nothing else; D10 (log 7), CAUSE and the record in DIAG; D14 (log 11), the
staging of the image; D15 (log 12), the stop of a halted machine; D20 (log 14), that the fourth error is raised by nothing. -/
def Obligations.BootedRunsNeverGetStuck : Prop :=
  ∀ (image : List Byte) (s0 : State), image.length ≤ 256 →
    ∃ s, boot image s0 = .next s ∧ ∀ n : Nat,
      (∃ t, Host.Core.run Sys2Proof.core n s = .next t ∧ Inv t) ∨
      (∃ k t, k < n ∧ Host.Core.run Sys2Proof.core k s = .next t ∧ Inv t ∧
        (t.endedNormally ∨ t.endedFatally) ∧ Host.Core.run Sys2Proof.core n s = .fault .halted)

/-- The host's word for one opcode-table row is fetched and run by the very next step (the model's own device for the host, log
17). Decisions it also rests on: D1 (log 1), the opcode values. -/
def Obligations.PlacedWordIsTheNextInstruction : Prop :=
  ∀ (s : State) (nbits w : Nat) (i : Instr), s.mem.wf = true → decodeTableWord nbits w = some i →
    step (s.withFetchWord nbits w) = exec i (s.withFetchWord nbits w)

/-! ## The machine under any opcode map -/

/-- The opcode map is a parameter of the whole machine (R86; its default values are decision D1, log 1): under any map a running
machine's step is the meaning of what the bytes at `pc` decode to, and under an injective one that is the instruction they encode.
Decisions it also rests on: D7 (log 6), that all operand bytes are fetched before any effect; D17 (log 19), that a step is one
instruction. -/
def Obligations.StepUnderAnyMapRunsTheDecodedInstruction : Prop :=
  ∀ (m : Opcode → Byte) (s : State) (i : Instr) (rest : List Byte), s.run = .running →
    (decodeWith m (codeBytes s) = .ok (i, rest) → stepWith m s = execWith m i s) ∧
    (Function.Injective m → codeBytes s = encodeWith m i ++ rest → stepWith m s = execWith m i s)

/-- This hardware is the parametric machine at the default map (R86; log 1). -/
def Obligations.HardwareIsTheMachineAtTheDefaultMap : Prop :=
  (∀ (i : Instr) (s : State), exec i s = execWith opc i s) ∧ ∀ s : State, step s = stepWith opc s

/-- The map does not enter an instruction's effect: under any two maps an instruction answers next states that differ at most in the
opcode byte recorded in DIAG, and in nothing where it neither halts nor faults (R86, R185; the record is D10, log 7). -/
def Obligations.EffectDoesNotDependOnTheOpcodeMap : Prop :=
  ∀ (m n : Opcode → Byte) (i : Instr) (s : State), ∃ t u, execWith m i s = .next t ∧ execWith n i s = .next u ∧
    u = { t with diag := { t.diag with opcode := u.diag.opcode } } ∧
    (i.wellFormed = true → i ≠ .hlt → u = t)
end

