-- ==== Sys2Proof/Laws/Decode.lean ====
section
/-! SUPPORT. The laws of the opcode map and of decoding. -/

namespace Sys2Proof

theorem Opcode.mem_all (op : Opcode) : op ∈ Opcode.all := by cases op <;> decide

/-- The default map gives each mnemonic a byte of its own (R86). -/
theorem opc_injective : Function.Injective opc := by
  intro a b h
  cases a <;> cases b <;> first | rfl | (exact absurd h (by decide))

/-- A byte stands for a mnemonic only if the map gives it to that mnemonic (R87). -/
theorem opcodeOf_some {m : Opcode → Byte} {b : Byte} {op : Opcode} (h : opcodeOf m b = some op) : m op = b := by
  simpa using List.find?_some h

/-- Under an injective map the byte of a mnemonic stands for it. -/
theorem opcodeOf_map {m : Opcode → Byte} (hm : Function.Injective m) (op : Opcode) :
    opcodeOf m (m op) = some op := by
  cases h : opcodeOf m (m op) with
  | some q => rw [hm (opcodeOf_some h)]
  | none => simpa using List.find?_eq_none.mp h op op.mem_all

@[simp] theorem opcodeOf_opc (op : Opcode) : opcodeOf opc (opc op) = some op := opcodeOf_map opc_injective op

/-- A byte is illegal exactly when the map gives it to no mnemonic (R88). -/
theorem opcodeOf_none {m : Opcode → Byte} {b : Byte} : opcodeOf m b = none ↔ ∀ op, m op ≠ b := by
  unfold opcodeOf
  rw [List.find?_eq_none]
  exact ⟨fun h op e => h op op.mem_all (by simp [e]), fun h op _ => by simpa using h op⟩

end Sys2Proof
end

