-- ==== Sys2Proof/Laws/Memory.lean ====
section
/-! SUPPORT. The laws of memory: read after write, the frame of a write, and that every memory operation keeps the canonical
form. -/

namespace Sys2Proof.Machine

/-- A write leaves every other address alone. -/
theorem Memory.read_write_ne (m : Memory) (a c : Nat) (v : Byte) (h : c ≠ a) :
    (m.write a v).read c = m.read c := by
  induction m with
  | nil => simp only [Memory.write]; split <;> simp [Memory.read, h]
  | cons e m ih =>
    obtain ⟨b, w⟩ := e
    simp only [Memory.write]
    split
    · split <;> simp [Memory.read, h]
    · split
      · rename_i hab
        subst hab
        split <;> simp [Memory.read, h]
      · simp [Memory.read, ih]

/-- Below the first address of a canonical memory nothing is listed. -/
theorem Memory.read_of_lt {lo : Nat} {m : Memory} (hm : Memory.wfFrom lo m = true) {a : Nat} (ha : a < lo) :
    m.read a = Config.memReset := by
  induction m generalizing lo with
  | nil => rfl
  | cons e m ih =>
    obtain ⟨b, w⟩ := e
    simp only [Memory.wfFrom, Bool.and_eq_true, decide_eq_true_eq] at hm
    have hne : a ≠ b := by omega
    simp only [Memory.read, hne, if_false]
    exact ih hm.2 (by omega)

theorem Memory.wfFrom_mono {lo lo' : Nat} {m : Memory} (hm : Memory.wfFrom lo m = true) (h : lo' ≤ lo) :
    Memory.wfFrom lo' m = true := by
  cases m with
  | nil => rfl
  | cons e m =>
    simp only [Memory.wfFrom, Bool.and_eq_true, decide_eq_true_eq] at hm ⊢
    exact ⟨⟨⟨by omega, hm.1.1.2⟩, hm.1.2⟩, hm.2⟩

theorem Memory.read_write_same_from {lo : Nat} {m : Memory} (hm : Memory.wfFrom lo m = true) (a : Nat) (v : Byte) :
    (m.write a v).read a = v := by
  induction m generalizing lo with
  | nil =>
    simp only [Memory.write]
    split
    · rename_i h; simp [Memory.read, h]
    · simp [Memory.read]
  | cons e m ih =>
    obtain ⟨b, w⟩ := e
    simp only [Memory.wfFrom, Bool.and_eq_true, decide_eq_true_eq] at hm
    simp only [Memory.write]
    split
    · rename_i hab
      split
      · rename_i hv
        have hne : a ≠ b := by omega
        simp only [Memory.read, hne, if_false]
        rw [Memory.read_of_lt hm.2 (by omega), hv]
      · simp [Memory.read]
    · split
      · rename_i hab
        subst hab
        split
        · rename_i hv
          rw [Memory.read_of_lt hm.2 (by omega), hv]
        · simp [Memory.read]
      · rename_i hab
        simp only [Memory.read, hab, if_false]
        exact ih hm.2

/-- A read after a write to the same place gives the value written. -/
theorem Memory.read_write_same {m : Memory} (hm : m.wf = true) (a : Nat) (v : Byte) : (m.write a v).read a = v :=
  Memory.read_write_same_from hm a v

theorem Memory.read_write {m : Memory} (hm : m.wf = true) (a c : Nat) (v : Byte) :
    (m.write a v).read c = if c = a then v else m.read c := by
  by_cases h : c = a
  · simp [h, Memory.read_write_same hm]
  · simp [h, Memory.read_write_ne]

theorem Memory.wfFrom_write {lo : Nat} {m : Memory} (hm : Memory.wfFrom lo m = true) {a : Nat} (hlo : lo ≤ a)
    (ha : a < 256) (v : Byte) : Memory.wfFrom lo (m.write a v) = true := by
  induction m generalizing lo with
  | nil =>
    simp only [Memory.write]
    split
    · rfl
    · rename_i h
      simpa [Memory.wfFrom, hlo, ha] using h
  | cons e m ih =>
    obtain ⟨b, w⟩ := e
    have hm0 := hm
    simp only [Memory.wfFrom, Bool.and_eq_true, decide_eq_true_eq] at hm
    simp only [Memory.write]
    split
    · rename_i hab
      split
      · exact hm0
      · rename_i hv
        simp only [Memory.wfFrom, Bool.and_eq_true, decide_eq_true_eq]
        exact ⟨⟨⟨hlo, ha⟩, hv⟩, ⟨⟨by omega, hm.1.1.2⟩, hm.1.2⟩, hm.2⟩
    · split
      · rename_i hab
        subst hab
        split
        · exact Memory.wfFrom_mono hm.2 (by omega)
        · rename_i hv
          simp only [Memory.wfFrom, Bool.and_eq_true, decide_eq_true_eq]
          exact ⟨⟨⟨hlo, ha⟩, hv⟩, hm.2⟩
      · rename_i hlt hne
        simp only [Memory.wfFrom, Bool.and_eq_true, decide_eq_true_eq]
        exact ⟨⟨hm.1.1, hm.1.2⟩, ih hm.2 (by omega)⟩

/-- Every write inside the address space keeps the canonical form. -/
theorem Memory.wf_write {m : Memory} (hm : m.wf = true) {a : Nat} (ha : a < 256) (v : Byte) :
    (m.write a v).wf = true :=
  Memory.wfFrom_write hm (by omega) ha v

/-- Writing bytes to consecutive cells inside the address space keeps the canonical form. -/
theorem Memory.wf_writeBytes {m : Memory} (hm : m.wf = true) (bs : List Byte) {a : Nat} (ha : a + bs.length ≤ 256) :
    (m.writeBytes a bs).wf = true := by
  induction bs generalizing m a with
  | nil => exact hm
  | cons b bs ih =>
    simp only [List.length_cons] at ha
    exact ih (Memory.wf_write hm (by omega) b) (by omega)

/-- Writing bytes to consecutive cells leaves the cells before them and after them alone. -/
theorem Memory.read_writeBytes_outside (m : Memory) (bs : List Byte) (a c : Nat)
    (h : c < a ∨ a + bs.length ≤ c) : (m.writeBytes a bs).read c = m.read c := by
  induction bs generalizing m a with
  | nil => rfl
  | cons b bs ih =>
    simp only [List.length_cons] at h
    rw [Memory.writeBytes, ih _ _ (by omega), Memory.read_write_ne _ _ _ _ (by omega)]

/-- Writing bytes to consecutive cells puts each byte in its cell. -/
theorem Memory.read_writeBytes {m : Memory} (hm : m.wf = true) (bs : List Byte) {a : Nat} (ha : a + bs.length ≤ 256)
    (i : Nat) (hi : i < bs.length) : (m.writeBytes a bs).read (a + i) = bs[i] := by
  induction bs generalizing m a i with
  | nil => simp at hi
  | cons b bs ih =>
    simp only [List.length_cons] at ha hi
    cases i with
    | zero =>
      rw [Memory.writeBytes, Memory.read_writeBytes_outside _ _ _ _ (by omega)]
      simpa using Memory.read_write_same hm a b
    | succ i =>
      have h := ih (Memory.wf_write hm (a := a) (by omega) b) (a := a + 1) (by omega) i (by omega)
      rw [Memory.writeBytes, show a + (i + 1) = a + 1 + i by omega, h]
      simp

end Sys2Proof.Machine
end

