-- ==== Sys2Proof/Laws/State.lean ====
section
/-! SUPPORT. One lemma per field per update of the state, so that no later proof unfolds a record update. -/

namespace Sys2Proof.Machine

variable (s : State) (r q : RegIdx) (v : Byte) (p : PcWord) (f : Flags)
  (c : Cause) (n : Option Nat) (bs : List Byte) (t : Trap)

@[simp] theorem reg_setReg_same : (s.setReg r v).reg r = v := by simp [State.reg, State.setReg]

theorem reg_setReg (s : State) (r q : RegIdx) (v : Byte) :
    (s.setReg r v).reg q = if q = r then v else s.reg q := by
  by_cases h : q = r
  · simp [h]
  · have h' : r.val ≠ q.val := fun e => h (Fin.ext e.symm)
    simp [State.reg, State.setReg, h, h']

theorem reg_setReg_ne (h : q ≠ r) : (s.setReg r v).reg q = s.reg q := by simp [reg_setReg, h]

theorem sp_eq_reg : s.sp = s.reg 7 := rfl

/-- Two states with the same registers, read one by one, have the same register file. -/
theorem x_ext (s t : State) (h : ∀ r, t.reg r = s.reg r) : t.x = s.x := by
  apply Vector.ext
  intro i hi
  exact h ⟨i, hi⟩

@[simp] theorem setReg_pc : (s.setReg r v).pc = s.pc := rfl
@[simp] theorem setReg_fl : (s.setReg r v).fl = s.fl := rfl
@[simp] theorem setReg_mem : (s.setReg r v).mem = s.mem := rfl
@[simp] theorem setReg_run : (s.setReg r v).run = s.run := rfl
@[simp] theorem setReg_cause : (s.setReg r v).cause = s.cause := rfl
@[simp] theorem setReg_diag : (s.setReg r v).diag = s.diag := rfl
@[simp] theorem setReg_out : (s.setReg r v).out = s.out := rfl

@[simp] theorem setSp_pc : (s.setSp v).pc = s.pc := rfl
@[simp] theorem setSp_fl : (s.setSp v).fl = s.fl := rfl
@[simp] theorem setSp_mem : (s.setSp v).mem = s.mem := rfl
@[simp] theorem setSp_run : (s.setSp v).run = s.run := rfl
@[simp] theorem setSp_cause : (s.setSp v).cause = s.cause := rfl
@[simp] theorem setSp_diag : (s.setSp v).diag = s.diag := rfl
@[simp] theorem setSp_out : (s.setSp v).out = s.out := rfl

@[simp] theorem decSp_pc : (s.decSp).pc = s.pc := rfl
@[simp] theorem decSp_fl : (s.decSp).fl = s.fl := rfl
@[simp] theorem decSp_mem : (s.decSp).mem = s.mem := rfl
@[simp] theorem decSp_run : (s.decSp).run = s.run := rfl
@[simp] theorem decSp_cause : (s.decSp).cause = s.cause := rfl
@[simp] theorem decSp_diag : (s.decSp).diag = s.diag := rfl
@[simp] theorem decSp_out : (s.decSp).out = s.out := rfl

@[simp] theorem incSp_pc : (s.incSp).pc = s.pc := rfl
@[simp] theorem incSp_fl : (s.incSp).fl = s.fl := rfl
@[simp] theorem incSp_mem : (s.incSp).mem = s.mem := rfl
@[simp] theorem incSp_run : (s.incSp).run = s.run := rfl
@[simp] theorem incSp_cause : (s.incSp).cause = s.cause := rfl
@[simp] theorem incSp_diag : (s.incSp).diag = s.diag := rfl
@[simp] theorem incSp_out : (s.incSp).out = s.out := rfl

@[simp] theorem setPc_x : (s.setPc p).x = s.x := rfl
@[simp] theorem setPc_pc : (s.setPc p).pc = p := rfl
@[simp] theorem setPc_fl : (s.setPc p).fl = s.fl := rfl
@[simp] theorem setPc_mem : (s.setPc p).mem = s.mem := rfl
@[simp] theorem setPc_run : (s.setPc p).run = s.run := rfl
@[simp] theorem setPc_cause : (s.setPc p).cause = s.cause := rfl
@[simp] theorem setPc_diag : (s.setPc p).diag = s.diag := rfl
@[simp] theorem setPc_out : (s.setPc p).out = s.out := rfl
@[simp] theorem setPc_reg : (s.setPc p).reg r = s.reg r := rfl
@[simp] theorem setPc_sp : (s.setPc p).sp = s.sp := rfl

@[simp] theorem setFlags_x : (s.setFlags f).x = s.x := rfl
@[simp] theorem setFlags_pc : (s.setFlags f).pc = s.pc := rfl
@[simp] theorem setFlags_fl : (s.setFlags f).fl = f := rfl
@[simp] theorem setFlags_mem : (s.setFlags f).mem = s.mem := rfl
@[simp] theorem setFlags_run : (s.setFlags f).run = s.run := rfl
@[simp] theorem setFlags_cause : (s.setFlags f).cause = s.cause := rfl
@[simp] theorem setFlags_diag : (s.setFlags f).diag = s.diag := rfl
@[simp] theorem setFlags_out : (s.setFlags f).out = s.out := rfl
@[simp] theorem setFlags_reg : (s.setFlags f).reg r = s.reg r := rfl
@[simp] theorem setFlags_sp : (s.setFlags f).sp = s.sp := rfl

@[simp] theorem emit_x : (s.emit v).x = s.x := rfl
@[simp] theorem emit_pc : (s.emit v).pc = s.pc := rfl
@[simp] theorem emit_fl : (s.emit v).fl = s.fl := rfl
@[simp] theorem emit_mem : (s.emit v).mem = s.mem := rfl
@[simp] theorem emit_run : (s.emit v).run = s.run := rfl
@[simp] theorem emit_cause : (s.emit v).cause = s.cause := rfl
@[simp] theorem emit_diag : (s.emit v).diag = s.diag := rfl
@[simp] theorem emit_out : (s.emit v).out = s.out ++ [v] := rfl
@[simp] theorem emit_reg : (s.emit v).reg r = s.reg r := rfl
@[simp] theorem emit_sp : (s.emit v).sp = s.sp := rfl

@[simp] theorem sp_setSp : (s.setSp v).sp = v := by simp [State.setSp, State.sp]
@[simp] theorem sp_decSp : s.decSp.sp = s.sp - 1 := by simp [State.decSp]
@[simp] theorem sp_incSp : s.incSp.sp = s.sp + 1 := by simp [State.incSp]

theorem reg_decSp : s.decSp.reg r = if r = 7 then s.sp - 1 else s.reg r := by
  simp [State.decSp, State.setSp, reg_setReg]

theorem reg_incSp : s.incSp.reg r = if r = 7 then s.sp + 1 else s.reg r := by
  simp [State.incSp, State.setSp, reg_setReg]

@[simp] theorem haltWith_x : (haltWith c n bs s).x = s.x := rfl
@[simp] theorem haltWith_pc : (haltWith c n bs s).pc = s.pc := rfl
@[simp] theorem haltWith_fl : (haltWith c n bs s).fl = s.fl := rfl
@[simp] theorem haltWith_mem : (haltWith c n bs s).mem = s.mem := rfl
@[simp] theorem haltWith_run : (haltWith c n bs s).run = .halted := rfl
@[simp] theorem haltWith_cause : (haltWith c n bs s).cause = c := rfl
@[simp] theorem haltWith_diag : (haltWith c n bs s).diag = 
    { pc := some s.pc, opcode := bs[0]?, opa := bs[1]?, opb := bs[2]?, info := n } := rfl
@[simp] theorem haltWith_out : (haltWith c n bs s).out = s.out := rfl
@[simp] theorem haltWith_reg : (haltWith c n bs s).reg r = s.reg r := rfl

@[simp] theorem raise_x : (raise t bs s).x = s.x := rfl
@[simp] theorem raise_pc : (raise t bs s).pc = s.pc := rfl
@[simp] theorem raise_fl : (raise t bs s).fl = s.fl := rfl
@[simp] theorem raise_mem : (raise t bs s).mem = s.mem := rfl
@[simp] theorem raise_run : (raise t bs s).run = .halted := rfl
@[simp] theorem raise_cause : (raise t bs s).cause = t.cause := rfl
@[simp] theorem raise_diag : (raise t bs s).diag = 
    { pc := some s.pc, opcode := bs[0]?, opa := bs[1]?, opb := bs[2]?, info := some t.info } := rfl
@[simp] theorem raise_out : (raise t bs s).out = s.out := rfl
@[simp] theorem raise_reg : (raise t bs s).reg r = s.reg r := rfl

end Sys2Proof.Machine
end

