-- ==== Sys2Proof/Laws/Ops.lean ====
section
/-! SUPPORT. One law per shared operation: what it answers, and when it raises. -/

namespace Sys2Proof.Machine

@[simp] theorem trunc8_toNat (v : Nat) : (trunc8 v).toNat = v % 256 := by simp [trunc8]

@[simp] theorem zext9_toNat (b : Byte) : (zext9 b).toNat = b.toNat := by
  have := b.isLt
  simp only [zext9, BitVec.toNat_setWidth]
  omega

/-- `SP - 1` in natural numbers (R150; decision D3). -/
theorem byte_pred_toNat (b : Byte) : (b - 1).toNat = (b.toNat + 255) % 256 := by simp [Nat.add_comm]

/-- `SP + 1` in natural numbers (R150; decision D3). -/
theorem byte_succ_toNat (b : Byte) : (b + 1).toNat = (b.toNat + 1) % 256 := by simp

/-- `pc0 + 2` in natural numbers: not reduced after a fetch, where `pc0` is at most 255 (R27). -/
theorem pc_add_two_toNat (p : PcWord) : (p + 2).toNat = (p.toNat + 2) % 512 := by simp

/-- `pc0 + 3` in natural numbers (R27). -/
theorem pc_add_three_toNat (p : PcWord) : (p + 3).toNat = (p.toNat + 3) % 512 := by simp

@[simp] theorem regByte_toNat (r : RegIdx) : (regByte r).toNat = r.val := by
  have := r.isLt
  simp only [regByte, BitVec.toNat_ofNat]
  omega

/-- A register's own byte is accepted. -/
@[simp] theorem checkReg_regByte (r : RegIdx) : checkReg (regByte r) = .ok r := by
  simp [checkReg, r.isLt]

/-- Every byte that is accepted is the byte of the register it names. -/
theorem checkReg_ok {b : Byte} {r : RegIdx} (h : checkReg b = .ok r) : b = regByte r := by
  unfold checkReg at h
  split at h
  · cases h
    apply BitVec.eq_of_toNat_eq
    simp
  · cases h

/-- `CheckReg` raises RegisterError with the byte exactly when it is 8 or more (R23). -/
theorem checkReg_error {b : Byte} (h : 8 ≤ b.toNat) : checkReg b = .error ⟨.registerError, b.toNat⟩ := by
  simp [checkReg, Nat.not_lt.mpr h]

/-- The two answers of `CheckReg` (R23). -/
theorem checkReg_cases (b : Byte) :
    (∃ r, checkReg b = .ok r ∧ b = regByte r) ∨
      (checkReg b = .error ⟨.registerError, b.toNat⟩ ∧ 8 ≤ b.toNat) := by
  by_cases h : b.toNat < 8
  · have e : checkReg b = .ok ⟨b.toNat, h⟩ := by simp [checkReg, h]
    exact .inl ⟨_, e, checkReg_ok e⟩
  · exact .inr ⟨checkReg_error (by omega), by omega⟩

@[simp] theorem withReg_regByte (r : RegIdx) (body : RegIdx → Except Trap State) :
    withReg (regByte r) body = body r := by simp [withReg]

@[simp] theorem withRegs_regByte (a b : RegIdx) (body : RegIdx → RegIdx → Except Trap State) :
    withRegs (regByte a) (regByte b) body = body a b := by simp [withRegs]

theorem withReg_error {b : Byte} (h : 8 ≤ b.toNat) (body : RegIdx → Except Trap State) :
    withReg b body = .error ⟨.registerError, b.toNat⟩ := by simp [withReg, checkReg_error h]

/-- The two answers of a body with one register operand. -/
theorem withReg_cases (b : Byte) (body : RegIdx → Except Trap State) :
    (∃ r, b = regByte r ∧ withReg b body = body r) ∨
      (8 ≤ b.toNat ∧ withReg b body = .error ⟨.registerError, b.toNat⟩) := by
  obtain ⟨r, -, rfl⟩ | ⟨-, h⟩ := checkReg_cases b
  · exact .inl ⟨r, rfl, by simp⟩
  · exact .inr ⟨h, withReg_error h body⟩

/-- The three answers of a body with two register operands: `opa` is looked at before `opb` (R105, R186). -/
theorem withRegs_cases (a b : Byte) (body : RegIdx → RegIdx → Except Trap State) :
    (∃ ra rb, a = regByte ra ∧ b = regByte rb ∧ withRegs a b body = body ra rb) ∨
      (8 ≤ a.toNat ∧ withRegs a b body = .error ⟨.registerError, a.toNat⟩) ∨
      (a.toNat < 8 ∧ 8 ≤ b.toNat ∧ withRegs a b body = .error ⟨.registerError, b.toNat⟩) := by
  unfold withRegs
  obtain ⟨ra, rfl, ha⟩ | ⟨h, ha⟩ := withReg_cases a fun ra => withReg b fun rb => body ra rb
  · obtain ⟨rb, rfl, hb⟩ | ⟨h, hb⟩ := withReg_cases b fun rb => body ra rb
    · exact .inl ⟨ra, rb, rfl, rfl, by rw [ha, hb]⟩
    · exact .inr (.inr ⟨by simp, h, by rw [ha, hb]⟩)
  · exact .inr (.inl ⟨h, ha⟩)

@[simp] theorem attempt_ok (m : Opcode → Byte) (i : Instr) (s t : State) : attempt m i s (.ok t) = .next t := rfl

@[simp] theorem attempt_error (m : Opcode → Byte) (i : Instr) (s : State) (t : Trap) :
    attempt m i s (.error t) = .next (raise t (encodeWith m i) s) := rfl

theorem memRead_ok (s : State) {a : Nat} (h : a < 256) : memRead s a = .ok (s.mem.read a) := if_pos h

theorem memRead_error (s : State) {a : Nat} (h : 256 ≤ a) : memRead s a = .error ⟨.addressError, a⟩ :=
  if_neg (Nat.not_lt.mpr h)

theorem memWrite_ok (s : State) {a : Nat} (v : Nat) (h : a < 256) :
    memWrite s a v = .ok { s with mem := s.mem.write a (trunc8 v) } := if_pos h

theorem memWrite_error (s : State) {a : Nat} (v : Nat) (h : 256 ≤ a) :
    memWrite s a v = .error ⟨.addressError, a⟩ := if_neg (Nat.not_lt.mpr h)

/-- A load at the stack pointer never raises: `SP` is a byte, and every byte is a valid address (R54). -/
@[simp] theorem loadTop_eq (s : State) : loadTop s = .ok (s.mem.read s.sp.toNat) := memRead_ok s s.sp.isLt

/-- The state a push leaves: `SP` decremented and the cell it then names written (R150). -/
def afterPush (s : State) (v : Nat) : State :=
  { s.decSp with mem := s.mem.write (s.sp - 1).toNat (trunc8 v) }

@[simp] theorem afterPush_reg (s : State) (v : Nat) (r : RegIdx) : (afterPush s v).reg r = s.decSp.reg r := rfl
@[simp] theorem afterPush_sp (s : State) (v : Nat) : (afterPush s v).sp = s.sp - 1 := sp_decSp s
@[simp] theorem afterPush_pc (s : State) (v : Nat) : (afterPush s v).pc = s.pc := rfl
@[simp] theorem afterPush_fl (s : State) (v : Nat) : (afterPush s v).fl = s.fl := rfl
@[simp] theorem afterPush_mem (s : State) (v : Nat) :
    (afterPush s v).mem = s.mem.write (s.sp - 1).toNat (trunc8 v) := rfl
@[simp] theorem afterPush_run (s : State) (v : Nat) : (afterPush s v).run = s.run := rfl
@[simp] theorem afterPush_cause (s : State) (v : Nat) : (afterPush s v).cause = s.cause := rfl
@[simp] theorem afterPush_diag (s : State) (v : Nat) : (afterPush s v).diag = s.diag := rfl
@[simp] theorem afterPush_out (s : State) (v : Nat) : (afterPush s v).out = s.out := rfl

/-- A push never raises (R54): it decrements `SP` and writes the one cell there. -/
@[simp] theorem pushValue_eq (s : State) (v : State → Nat) : pushValue s v = .ok (afterPush s (v s.decSp)) := by
  have h : pushValue s v = memWrite s.decSp (s.sp - 1).toNat (v s.decSp) := by simp [pushValue]
  rw [h, memWrite_ok _ _ (s.sp - 1).isLt]
  rfl

/-- The two outcomes of a branch (R164, R165, R168). -/
theorem branch_pc (taken : Bool) (r : RegIdx) (s : State) :
    (branch taken r s).pc = if taken then zext9 (s.reg r) else s.pc + 2 := rfl

@[simp] theorem branch_x (taken : Bool) (r : RegIdx) (s : State) : (branch taken r s).x = s.x := rfl
@[simp] theorem branch_reg (taken : Bool) (r q : RegIdx) (s : State) : (branch taken r s).reg q = s.reg q := rfl
@[simp] theorem branch_fl (taken : Bool) (r : RegIdx) (s : State) : (branch taken r s).fl = s.fl := rfl
@[simp] theorem branch_mem (taken : Bool) (r : RegIdx) (s : State) : (branch taken r s).mem = s.mem := rfl
@[simp] theorem branch_run (taken : Bool) (r : RegIdx) (s : State) : (branch taken r s).run = s.run := rfl
@[simp] theorem branch_cause (taken : Bool) (r : RegIdx) (s : State) : (branch taken r s).cause = s.cause := rfl
@[simp] theorem branch_diag (taken : Bool) (r : RegIdx) (s : State) : (branch taken r s).diag = s.diag := rfl
@[simp] theorem branch_out (taken : Bool) (r : RegIdx) (s : State) : (branch taken r s).out = s.out := rfl

/-- The three outcomes of COMPARE: one flag set, the other two kept (R137, R138). -/
theorem compare_cases (f : Flags) (a b : Byte) :
    (a.toNat = b.toNat ∧ f.compare a b = ⟨true, f.l, f.g⟩) ∨
      (a.toNat < b.toNat ∧ f.compare a b = ⟨f.e, true, f.g⟩) ∨
      (b.toNat < a.toNat ∧ f.compare a b = ⟨f.e, f.l, true⟩) := by
  unfold Flags.compare
  by_cases h : a.toNat = b.toNat
  · simp [h]
  · by_cases h' : a.toNat < b.toNat
    · simp [h, h']
    · have : b.toNat < a.toNat := by omega
      simp [h, h', this]

end Sys2Proof.Machine
end

