-- ==== Sys2Proof/Laws/Fetch.lean ====
section
/-! SUPPORT. What the fetch of an instruction can answer (40_execution_cycle.md R102 to R104). -/

namespace Sys2Proof.Machine

theorem fetchByte_ok (s : State) {a : Nat} (bs : List Byte) (h : a < 256) :
    fetchByte s a bs = .ok (s.mem.read a) := by simp [fetchByte, memRead_ok s h]

theorem fetchByte_error (s : State) {a : Nat} (bs : List Byte) (h : 256 ≤ a) :
    fetchByte s a bs = .error ⟨⟨.addressError, a⟩, bs⟩ := by simp [fetchByte, memRead_error s h]

/-- A fetch at 256 or beyond raises AddressError with nothing fetched (R102). -/
theorem fetchWith_beyond (m : Opcode → Byte) {s : State} (h : 256 ≤ s.pc.toNat) :
    fetchWith m s = .error ⟨⟨.addressError, s.pc.toNat⟩, []⟩ := by
  simp [fetchWith, fetchByte_error s [] h]

/-- An opcode byte the map does not hold raises UnknownInstructionError (R103). -/
theorem fetchWith_unknown {m : Opcode → Byte} {s : State} (h : s.pc.toNat < 256)
    (ho : opcodeOf m (s.mem.read s.pc.toNat) = none) :
    fetchWith m s = .error ⟨⟨.unknownInstructionError, (s.mem.read s.pc.toNat).toNat⟩, [s.mem.read s.pc.toNat]⟩ := by
  simp [fetchWith, fetchByte_ok s [] h, ho]

/-- A known opcode byte leads to the operand fetch of its shape (R103, R104). -/
theorem fetchWith_known {m : Opcode → Byte} {s : State} (h : s.pc.toNat < 256) {op : Opcode}
    (ho : opcodeOf m (s.mem.read s.pc.toNat) = some op) :
    fetchWith m s = fetchOperands s (s.mem.read s.pc.toNat) op.shape := by
  simp [fetchWith, fetchByte_ok s [] h, ho]

/-- The operand fetch of an opcode makes an instruction of that opcode (R104). -/
theorem fetchOperands_opcode {s : State} {b0 : Byte} {op : Opcode} {i : Instr}
    (h : fetchOperands s b0 op.shape = .ok i) : i.opcode = op := by
  cases op <;> simp only [Opcode.shape, fetchOperands] at h <;> (repeat' split at h) <;> cases h <;> rfl

/-- Every error of the operand fetch is AddressError at 256 or 257, with the opcode byte recorded (R104). -/
theorem fetchOperands_error {s : State} {b0 : Byte} {sh : Shape} {e : FetchTrap} (hp : s.pc.toNat < 256)
    (h : fetchOperands s b0 sh = .error e) :
    e.trap.cause = .addressError ∧ (e.trap.info = 256 ∨ e.trap.info = 257) := by
  cases sh with
  | zero i => cases h
  | one f =>
    by_cases h1 : s.pc.toNat + 1 < 256
    · simp [fetchOperands, fetchByte_ok s _ h1] at h
    · simp only [fetchOperands, fetchByte_error s [b0] (Nat.not_lt.mp h1), Except.error.injEq] at h
      subst h
      exact ⟨rfl, by simp only; omega⟩
  | two f =>
    by_cases h1 : s.pc.toNat + 1 < 256
    · by_cases h2 : s.pc.toNat + 2 < 256
      · simp [fetchOperands, fetchByte_ok s _ h1, fetchByte_ok s _ h2] at h
      · simp only [fetchOperands, fetchByte_ok s _ h1,
          fetchByte_error s [b0, s.mem.read (s.pc.toNat + 1)] (Nat.not_lt.mp h2), Except.error.injEq] at h
        subst h
        exact ⟨rfl, by simp only; omega⟩
    · simp only [fetchOperands, fetchByte_error s [b0] (Nat.not_lt.mp h1), Except.error.injEq] at h
      subst h
      exact ⟨rfl, by simp only; omega⟩

/-- The errors of a fetch: AddressError at `pc` itself with nothing fetched, AddressError at 256 or 257 on an operand, or
UnknownInstructionError with the opcode byte (R102 to R104, R181, R183). -/
theorem fetchWith_error {m : Opcode → Byte} {s : State} {e : FetchTrap} (h : fetchWith m s = .error e) :
    (256 ≤ s.pc.toNat ∧ e = ⟨⟨.addressError, s.pc.toNat⟩, []⟩) ∨
      (s.pc.toNat < 256 ∧ e.trap.cause = .addressError ∧ (e.trap.info = 256 ∨ e.trap.info = 257)) ∨
      (s.pc.toNat < 256 ∧ ∃ b : Byte, e = ⟨⟨.unknownInstructionError, b.toNat⟩, [b]⟩) := by
  by_cases hp : s.pc.toNat < 256
  · cases ho : opcodeOf m (s.mem.read s.pc.toNat) with
    | none =>
      rw [fetchWith_unknown hp ho] at h
      exact .inr (.inr ⟨hp, _, (Except.error.inj h).symm⟩)
    | some op =>
      rw [fetchWith_known hp ho] at h
      exact .inr (.inl ⟨hp, fetchOperands_error hp h⟩)
  · rw [fetchWith_beyond m (Nat.not_lt.mp hp)] at h
    exact .inl ⟨Nat.not_lt.mp hp, (Except.error.inj h).symm⟩

/-- An instruction is fetched only from inside memory (R102). -/
theorem fetchWith_ok_pc {m : Opcode → Byte} {s : State} {i : Instr} (h : fetchWith m s = .ok i) : s.pc.toNat < 256 := by
  by_cases hp : s.pc.toNat < 256
  · exact hp
  · rw [fetchWith_beyond m (Nat.not_lt.mp hp)] at h
    cases h

/-- The instruction fetched under a map is one whose opcode byte the map puts at `pc` (R103). -/
theorem fetchWith_ok_opcode {m : Opcode → Byte} {s : State} {i : Instr} (h : fetchWith m s = .ok i) :
    m i.opcode = s.mem.read s.pc.toNat := by
  have hp := fetchWith_ok_pc h
  cases ho : opcodeOf m (s.mem.read s.pc.toNat) with
  | none => rw [fetchWith_unknown hp ho] at h; cases h
  | some op =>
    rw [fetchWith_known hp ho] at h
    rw [fetchOperands_opcode h, opcodeOf_some ho]

end Sys2Proof.Machine
end

