-- ==== Sys2Proof/Laws/Exec.lean ====
section
/-! SUPPORT. What an instruction and a step can do, said once: `Effect` lists every next state `exec` can answer, and `step_cases`
every outcome of a step. Later proofs argue by cases over these two and unfold neither `exec` nor `step`. -/

namespace Sys2Proof.Machine

/-- Every next state of an instruction under an opcode map `m`: RegisterError on the first operand byte of 8 or more, or its own effect. -/
inductive Effect (m : Opcode → Byte) (s : State) : Instr → State → Prop
  | badRegister (i : Instr) (b : Byte) (h : (i.regOperands.find? fun c => decide (8 ≤ c.toNat)) = some b) :
      Effect m s i (raise ⟨.registerError, b.toNat⟩ (encodeWith m i) s)
  | hlt : Effect m s .hlt (haltWith .hlt none (encodeWith m .hlt) s)
  | ldi (r : RegIdx) (v : Byte) : Effect m s (.ldi (regByte r) v) ((s.setReg r v).setPc (s.pc + 3))
  | prn (r : RegIdx) : Effect m s (.prn (regByte r)) ((s.emit (s.reg r)).setPc (s.pc + 2))
  | add (a b : RegIdx) : Effect m s (.add (regByte a) (regByte b)) ((alu .add a b s).setPc (s.pc + 3))
  | mult (a b : RegIdx) : Effect m s (.mult (regByte a) (regByte b)) ((alu .multiply a b s).setPc (s.pc + 3))
  | cmp (a b : RegIdx) : Effect m s (.cmp (regByte a) (regByte b)) ((alu .compare a b s).setPc (s.pc + 3))
  | push (r : RegIdx) : Effect m s (.push (regByte r)) ((afterPush s (s.decSp.reg r).toNat).setPc (s.pc + 2))
  | pop (r : RegIdx) :
      Effect m s (.pop (regByte r)) ((s.setReg r (s.mem.read s.sp.toNat)).incSp.setPc (s.pc + 2))
  | call (r : RegIdx) :
      Effect m s (.call (regByte r)) ((afterPush s (s.pc.toNat + 2)).setPc (zext9 (s.decSp.reg r)))
  | ret : Effect m s .ret ((s.setPc (zext9 (s.mem.read s.sp.toNat))).incSp)
  | jmp (r : RegIdx) : Effect m s (.jmp (regByte r)) (branch true r s)
  | jeq (r : RegIdx) : Effect m s (.jeq (regByte r)) (branch s.fl.e r s)
  | jne (r : RegIdx) : Effect m s (.jne (regByte r)) (branch (!s.fl.e) r s)

theorem attempt_withReg (m : Opcode → Byte) (i : Instr) (s : State) (b : Byte) (body : RegIdx → Except Trap State)
    (hi : i.regOperands = [b]) :
    (∃ r, b = regByte r ∧ attempt m i s (withReg b body) = attempt m i s (body r)) ∨
      ∃ t, attempt m i s (withReg b body) = .next t ∧ Effect m s i t := by
  obtain ⟨r, rfl, h⟩ | ⟨hb, h⟩ := withReg_cases b body
  · exact .inl ⟨r, rfl, by rw [h]⟩
  · exact .inr ⟨_, by rw [h, attempt_error], .badRegister i b (by simp [hi, hb])⟩

theorem attempt_withRegs (m : Opcode → Byte) (i : Instr) (s : State) (a b : Byte) (body : RegIdx → RegIdx → Except Trap State)
    (hi : i.regOperands = [a, b]) :
    (∃ ra rb, a = regByte ra ∧ b = regByte rb ∧ attempt m i s (withRegs a b body) = attempt m i s (body ra rb)) ∨
      ∃ t, attempt m i s (withRegs a b body) = .next t ∧ Effect m s i t := by
  obtain ⟨ra, rb, rfl, rfl, h⟩ | ⟨ha, h⟩ | ⟨ha, hb, h⟩ := withRegs_cases a b body
  · exact .inl ⟨ra, rb, rfl, rfl, by rw [h]⟩
  · exact .inr ⟨_, by rw [h, attempt_error], .badRegister i a (by simp [hi, ha])⟩
  · exact .inr ⟨_, by rw [h, attempt_error], .badRegister i b (by
      have : ¬ 8 ≤ a.toNat := by omega
      simp [hi, this, hb])⟩

/-- Every instruction answers a next state, and it is one that `Effect` lists. -/
theorem execWith_effect (m : Opcode → Byte) (i : Instr) (s : State) : ∃ t, execWith m i s = .next t ∧ Effect m s i t := by
  cases i with
  | hlt => exact ⟨_, rfl, .hlt⟩
  | ldi a b =>
    obtain ⟨r, rfl, h⟩ | h := attempt_withReg m (.ldi a b) s a _ rfl
    · exact ⟨_, h, .ldi r b⟩
    · exact h
  | prn a =>
    obtain ⟨r, rfl, h⟩ | h := attempt_withReg m (.prn a) s a _ rfl
    · exact ⟨_, h, .prn r⟩
    · exact h
  | add a b =>
    obtain ⟨ra, rb, rfl, rfl, h⟩ | h := attempt_withRegs m (.add a b) s a b _ rfl
    · exact ⟨_, h, .add ra rb⟩
    · exact h
  | mult a b =>
    obtain ⟨ra, rb, rfl, rfl, h⟩ | h := attempt_withRegs m (.mult a b) s a b _ rfl
    · exact ⟨_, h, .mult ra rb⟩
    · exact h
  | cmp a b =>
    obtain ⟨ra, rb, rfl, rfl, h⟩ | h := attempt_withRegs m (.cmp a b) s a b _ rfl
    · exact ⟨_, h, .cmp ra rb⟩
    · exact h
  | push a =>
    obtain ⟨r, rfl, h⟩ | h := attempt_withReg m (.push a) s a _ rfl
    · exact ⟨_, by rw [execWith, execPushWith, h, pushValue_eq]; rfl, .push r⟩
    · exact h
  | pop a =>
    obtain ⟨r, rfl, h⟩ | h := attempt_withReg m (.pop a) s a _ rfl
    · exact ⟨_, by rw [execWith, execPopWith, h, loadTop_eq]; rfl, .pop r⟩
    · exact h
  | call a =>
    obtain ⟨r, rfl, h⟩ | h := attempt_withReg m (.call a) s a _ rfl
    · exact ⟨_, by rw [execWith, execCallWith, h, pushValue_eq]; rfl, .call r⟩
    · exact h
  | ret => exact ⟨_, by rw [execWith, execRetWith, loadTop_eq]; rfl, .ret⟩
  | jmp a =>
    obtain ⟨r, rfl, h⟩ | h := attempt_withReg m (.jmp a) s a _ rfl
    · exact ⟨_, h, .jmp r⟩
    · exact h
  | jeq a =>
    obtain ⟨r, rfl, h⟩ | h := attempt_withReg m (.jeq a) s a _ rfl
    · exact ⟨_, h, .jeq r⟩
    · exact h
  | jne a =>
    obtain ⟨r, rfl, h⟩ | h := attempt_withReg m (.jne a) s a _ rfl
    · exact ⟨_, h, .jne r⟩
    · exact h

/-- The inversion of `execWith`: a next state it answers is one that `Effect` lists. -/
theorem effect_of_execWith {m : Opcode → Byte} {i : Instr} {s t : State} (h : execWith m i s = .next t) :
    Effect m s i t := by
  obtain ⟨u, hu, e⟩ := execWith_effect m i s
  rw [hu] at h
  cases h
  exact e

/-- Two registers with the same operand byte are the same register. -/
theorem regByte_injective {a b : RegIdx} (h : regByte a = regByte b) : a = b :=
  Fin.ext (by simpa using congrArg BitVec.toNat h)

/-- No register's own byte is out of range. -/
theorem not_find_regByte (rs : List RegIdx) (b : Byte) :
    ((rs.map regByte).find? fun c => decide (8 ≤ c.toNat)) ≠ some b := by
  intro h
  obtain ⟨r, -, hr⟩ := List.mem_map.mp (List.mem_of_find?_eq_some h)
  have h8 := List.find?_some h
  rw [← hr] at h8
  simp at h8
  omega

/-- The effect of an instruction whose register operands are all in range, and RegisterError otherwise, is what `execWith`
answers. -/
theorem execWith_of_effect {m : Opcode → Byte} {s : State} {i : Instr} {t : State} (h : Effect m s i t) :
    execWith m i s = .next t := by
  cases h with
  | badRegister i b h =>
    obtain ⟨t, ht, he⟩ := execWith_effect m i s
    rw [ht]
    cases he with
    | badRegister i c h' => rw [h] at h'; cases h'; rfl
    | hlt | ret => cases h
    | ldi r | prn r | push r | pop r | call r | jmp r | jeq r | jne r => exact absurd h (not_find_regByte [r] b)
    | add r q | mult r q | cmp r q => exact absurd h (not_find_regByte [r, q] b)
  | hlt => rfl
  | ldi r v => simp only [execWith, execLdiWith, withReg_regByte, attempt_ok]
  | prn r => simp only [execWith, execPrnWith, withReg_regByte, attempt_ok]
  | add a b => simp only [execWith, execAddWith, withRegs_regByte, attempt_ok]
  | mult a b => simp only [execWith, execMultWith, withRegs_regByte, attempt_ok]
  | cmp a b => simp only [execWith, execCmpWith, withRegs_regByte, attempt_ok]
  | push r => simp only [execWith, execPushWith, withReg_regByte, pushValue_eq, attempt_ok]
  | pop r => simp only [execWith, execPopWith, withReg_regByte, loadTop_eq, attempt_ok]
  | call r => simp only [execWith, execCallWith, withReg_regByte, pushValue_eq, attempt_ok, afterPush_reg]
  | ret => simp only [execWith, execRetWith, loadTop_eq, attempt_ok]
  | jmp r => simp only [execWith, execJmpWith, withReg_regByte, attempt_ok]
  | jeq r => simp only [execWith, execJeqWith, withReg_regByte, attempt_ok]
  | jne r => simp only [execWith, execJneWith, withReg_regByte, attempt_ok]

/-- A running machine's step is the meaning of the instruction it fetches (R106). -/
theorem stepWith_of_fetch_ok {m : Opcode → Byte} {s : State} {i : Instr} (hr : s.run = .running)
    (hf : fetchWith m s = .ok i) : stepWith m s = execWith m i s := by simp [stepWith, hr, hf]

/-- A running machine's step is fault entry where the fetch raises (R190). -/
theorem stepWith_of_fetch_error {m : Opcode → Byte} {s : State} {e : FetchTrap} (hr : s.run = .running)
    (hf : fetchWith m s = .error e) : stepWith m s = .next (raise e.trap e.fetched s) := by simp [stepWith, hr, hf]

/-- The three outcomes of a step under any map: none when halted; fault entry from the fetch; the effect of the fetched instruction
(R100, R107). -/
theorem stepWith_cases (m : Opcode → Byte) (s : State) :
    (s.run = .halted ∧ stepWith m s = .fault .halted) ∨
      (s.run = .running ∧ ∃ e, fetchWith m s = .error e ∧ stepWith m s = .next (raise e.trap e.fetched s)) ∨
      (s.run = .running ∧ ∃ i t, fetchWith m s = .ok i ∧ stepWith m s = .next t ∧ Effect m s i t) := by
  cases hr : s.run with
  | halted => exact .inl ⟨rfl, by simp [stepWith, hr]⟩
  | running =>
    cases hf : fetchWith m s with
    | error e => exact .inr (.inl ⟨rfl, e, rfl, stepWith_of_fetch_error hr hf⟩)
    | ok i =>
      obtain ⟨t, ht, he⟩ := execWith_effect m i s
      exact .inr (.inr ⟨rfl, i, t, rfl, (stepWith_of_fetch_ok hr hf).trans ht, he⟩)

/-! ### This hardware: the same at the default map -/

/-- `exec` is the dispatch at the default map, arm by arm. -/
theorem exec_arms (i : Instr) (s : State) : exec i s = execWith opc i s := by cases i <;> rfl

theorem exec_effect (i : Instr) (s : State) : ∃ t, exec i s = .next t ∧ Effect opc s i t :=
  exec_arms i s ▸ execWith_effect opc i s

theorem effect_of_exec {i : Instr} {s t : State} (h : exec i s = .next t) : Effect opc s i t :=
  effect_of_execWith ((exec_arms i s).symm.trans h)

theorem exec_of_effect {s : State} {i : Instr} {t : State} (h : Effect opc s i t) : exec i s = .next t :=
  (exec_arms i s).trans (execWith_of_effect h)

theorem step_of_fetch_ok {s : State} {i : Instr} (hr : s.run = .running) (hf : fetch s = .ok i) :
    step s = exec i s := by simp [step, hr, hf]

theorem step_of_fetch_error {s : State} {e : FetchTrap} (hr : s.run = .running) (hf : fetch s = .error e) :
    step s = .next (raise e.trap e.fetched s) := by simp [step, hr, hf]

/-- The three outcomes of a step of this hardware. -/
theorem step_cases (s : State) :
    (s.run = .halted ∧ step s = .fault .halted) ∨
      (s.run = .running ∧ ∃ e, fetch s = .error e ∧ step s = .next (raise e.trap e.fetched s)) ∨
      (s.run = .running ∧ ∃ i t, fetch s = .ok i ∧ step s = .next t ∧ Effect opc s i t) := by
  cases hr : s.run with
  | halted => exact .inl ⟨rfl, by simp [step, hr]⟩
  | running =>
    cases hf : fetch s with
    | error e => exact .inr (.inl ⟨rfl, e, rfl, step_of_fetch_error hr hf⟩)
    | ok i =>
      obtain ⟨t, ht, he⟩ := exec_effect i s
      exact .inr (.inr ⟨rfl, i, t, rfl, (step_of_fetch_ok hr hf).trans ht, he⟩)

/-- The inversion of a step that answers a next state. -/
theorem step_next {s t : State} (h : step s = .next t) :
    s.run = .running ∧
      ((∃ e, fetch s = .error e ∧ t = raise e.trap e.fetched s) ∨ ∃ i, fetch s = .ok i ∧ Effect opc s i t) := by
  obtain ⟨-, hs⟩ | ⟨hr, e, hf, hs⟩ | ⟨hr, i, u, hf, hs, he⟩ := step_cases s <;> rw [hs] at h <;> cases h
  · exact ⟨hr, .inl ⟨e, hf, rfl⟩⟩
  · exact ⟨hr, .inr ⟨i, hf, he⟩⟩

end Sys2Proof.Machine
end

