-- ==== Sys2Proof/Laws/PerInstr.lean ====
section
/-! SUPPORT. A law per instruction: the length of its encoding is one plus the arity of its opcode (30_encoding.md R80, R81). -/

namespace Sys2Proof.Laws.EncodeLength

/-- The encoding has the opcode byte and as many operand bytes as the opcode's arity says. -/
def Statement (i : Instr) : Prop := (encode i).length = 1 + i.opcode.arity

theorem hlt : Statement .hlt := rfl
theorem ldi (opa opb : Byte) : Statement (.ldi opa opb) := rfl
theorem prn (opa : Byte) : Statement (.prn opa) := rfl
theorem add (opa opb : Byte) : Statement (.add opa opb) := rfl
theorem mult (opa opb : Byte) : Statement (.mult opa opb) := rfl
theorem cmp (opa opb : Byte) : Statement (.cmp opa opb) := rfl
theorem push (opa : Byte) : Statement (.push opa) := rfl
theorem pop (opa : Byte) : Statement (.pop opa) := rfl
theorem call (opa : Byte) : Statement (.call opa) := rfl
theorem ret : Statement .ret := rfl
theorem jmp (opa : Byte) : Statement (.jmp opa) := rfl
theorem jeq (opa : Byte) : Statement (.jeq opa) := rfl
theorem jne (opa : Byte) : Statement (.jne opa) := rfl

end Sys2Proof.Laws.EncodeLength
end

