-- ==== Sys2Proof/Laws/Run.lean ====
section
/-! SUPPORT. Runs of many steps: the induction over a run, packaged once. -/

namespace Sys2Proof.Machine

theorem step_halted {s : State} (h : s.run = .halted) : step s = .fault .halted := by simp [step, h]

@[simp] theorem run_zero (s : State) : Host.Core.run Sys2Proof.core 0 s = .next s := rfl

/-- A run of one step more is a step and then the run. -/
theorem run_succ_of_next {s t : State} (h : step s = .next t) (n : Nat) :
    Host.Core.run Sys2Proof.core (n + 1) s = Host.Core.run Sys2Proof.core n t := by
  have h' : Sys2Proof.core.step s = .next t := h
  simp only [Host.Core.run, h']

theorem run_succ_of_fault {s : State} {f : Fault} (h : step s = .fault f) (n : Nat) :
    Host.Core.run Sys2Proof.core (n + 1) s = .fault f := by
  have h' : Sys2Proof.core.step s = .fault f := h
  simp only [Host.Core.run, h']

/-- A run that answers a next state after `n + 1` steps took a first step. -/
theorem run_succ_next {n : Nat} {s t : State} (h : Host.Core.run Sys2Proof.core (n + 1) s = .next t) :
    ∃ u, step s = .next u ∧ Host.Core.run Sys2Proof.core n u = .next t := by
  obtain ⟨-, hs⟩ | ⟨-, e, -, hs⟩ | ⟨-, i, u, -, hs, -⟩ := step_cases s
  · rw [run_succ_of_fault hs] at h
    cases h
  · exact ⟨_, hs, by rwa [run_succ_of_next hs] at h⟩
  · exact ⟨_, hs, by rwa [run_succ_of_next hs] at h⟩

/-- A reflexive and transitive relation that every step respects holds between the ends of every run. -/
theorem run_induction (P : State → State → Prop) (refl : ∀ s, P s s) (trans : ∀ s t u, P s t → P t u → P s u)
    (each : ∀ s t, step s = .next t → P s t) (n : Nat) :
    ∀ s t : State, Host.Core.run Sys2Proof.core n s = .next t → P s t := by
  induction n with
  | zero =>
    intro s t h
    cases h
    exact refl s
  | succ n ih =>
    intro s t h
    obtain ⟨u, hu, h⟩ := run_succ_next h
    exact trans s u t (each s u hu) (ih u t h)

end Sys2Proof.Machine
end

