-- ==== Sys2Proof/Tests/Slice0.lean ====
section
/-! SUPPORT. The model's own tests. Expected values come from the spec: 30_encoding.md R97 for words, 95_test_vectors.md for steps
(each test names its vector). The last part gives, for each statement with hypotheses, a concrete state that meets them. -/

namespace Sys2Proof.Tests

open Sys2Proof Sys2Proof.Machine

/-! ## Well-formed instructions: each check refuses an ill-formed term -/

theorem test_wf_ldi_opa : (Instr.ldi 8 0).wellFormed = false := by decide
theorem test_wf_ldi_immediate_free : (Instr.ldi 7 255).wellFormed = true := by decide
theorem test_wf_prn_opa : (Instr.prn 8).wellFormed = false := by decide
theorem test_wf_add_opa : (Instr.add 8 0).wellFormed = false := by decide
theorem test_wf_add_opb : (Instr.add 0 8).wellFormed = false := by decide
theorem test_wf_mult_opa : (Instr.mult 255 0).wellFormed = false := by decide
theorem test_wf_mult_opb : (Instr.mult 0 255).wellFormed = false := by decide
theorem test_wf_cmp_opa : (Instr.cmp 9 0).wellFormed = false := by decide
theorem test_wf_cmp_opb : (Instr.cmp 0 9).wellFormed = false := by decide
theorem test_wf_push_opa : (Instr.push 8).wellFormed = false := by decide
theorem test_wf_pop_opa : (Instr.pop 8).wellFormed = false := by decide
theorem test_wf_call_opa : (Instr.call 8).wellFormed = false := by decide
theorem test_wf_jmp_opa : (Instr.jmp 8).wellFormed = false := by decide
theorem test_wf_jeq_opa : (Instr.jeq 8).wellFormed = false := by decide
theorem test_wf_jne_opa : (Instr.jne 8).wellFormed = false := by decide

/-! ## Decoding: one word per constructor, written out from R97 -/

theorem test_decode_hlt : decode [0b00000001] = .ok (.hlt, []) := by rfl
theorem test_decode_ldi : decode [0b10000010, 0b00000000, 0b00001000] = .ok (.ldi 0 8, []) := by rfl
theorem test_decode_prn : decode [0b01000111, 0b00000000] = .ok (.prn 0, []) := by rfl
theorem test_decode_add : decode [0b10100000, 0b00000000, 0b00000001] = .ok (.add 0 1, []) := by rfl
theorem test_decode_mult : decode [0b10100010, 0b00000000, 0b00000001] = .ok (.mult 0 1, []) := by rfl
theorem test_decode_cmp : decode [0b10100111, 0b00000000, 0b00000001] = .ok (.cmp 0 1, []) := by rfl
theorem test_decode_push : decode [0b01000101, 0b00000000] = .ok (.push 0, []) := by rfl
theorem test_decode_pop : decode [0b01000110, 0b00000001] = .ok (.pop 1, []) := by rfl
theorem test_decode_call : decode [0b01010000, 0b00000001] = .ok (.call 1, []) := by rfl
theorem test_decode_ret : decode [0b00010001] = .ok (.ret, []) := by rfl
theorem test_decode_jmp : decode [0b01010100, 0b00000010] = .ok (.jmp 2, []) := by rfl
theorem test_decode_jeq : decode [0b01010101, 0b00000010] = .ok (.jeq 2, []) := by rfl
theorem test_decode_jne : decode [0b01010110, 0b00000010] = .ok (.jne 2, []) := by rfl

/-- R88: 0x00 is illegal; R87: so is 0x80, although its bits 7:6 are 10. -/
theorem test_decode_illegal :
    decode [0x00] = .error (.unknownOpcode 0x00) ∧ decode [0x80, 0, 0] = .error (.unknownOpcode 0x80) := ⟨by rfl, by rfl⟩

theorem test_decode_short :
    decode [] = .error .noOpcode ∧ decode [0x47] = .error (.noFirstOperand 0x47) ∧
      decode [0xA0, 9] = .error (.noSecondOperand 0xA0 9) := ⟨by rfl, by rfl, by rfl⟩

/-- The first byte of a table word is its low byte: `LDI R0,200` is 82 00 C8 (R122). -/
theorem test_table_word : decodeTableWord 24 0xC80082 = some (.ldi 0 200) := by rfl

/-! ## Steps, from 95_test_vectors.md -/

/-- A running state with `pc`, two registers set and bytes at `pc`. -/
def at_ (pc : PcWord) (r0 : RegIdx) (v0 : Byte) (r1 : RegIdx) (v1 : Byte) (code : List Byte) : State :=
  { (State.reset.setReg r0 v0).setReg r1 v1 with pc := pc, mem := Memory.writeBytes [] pc.toNat code }

/-- The same state with the flags given. -/
def flagged (e l g : Bool) (s : State) : State := s.setFlags ⟨e, l, g⟩

/-- The same state with one more byte of memory. -/
def withByte (a : Nat) (v : Byte) (s : State) : State := { s with mem := s.mem.write a v }

/-- Whether a result is a next state with a property. -/
def after (r : Result) (p : State → Bool) : Bool :=
  match r with
  | .next t => p t
  | .fault _ => false
  | .refused _ => false

/-- V-HLT-2: HLT at the last address is fine. -/
theorem test_hlt_at_ff : after (step (at_ 255 0 0 0 0 [0x01])) (fun t =>
    t.run == .halted && t.cause == .hlt && t.pc == 255 && t.diag == ⟨some 255, some 1, none, none, none⟩) = true := by decide

/-- V-LDI-2: LDI R7 moves the stack pointer. -/
theorem test_ldi_r7 : after (step (at_ 0x10 0 0 0 0 [0x82, 7, 0x80])) (fun t => t.sp == 0x80 && t.pc == 0x13) = true := by
  decide

/-- V-LDI-4: `pc` leaves memory without wrapping. -/
theorem test_ldi_at_fd : after (step (at_ 0xFD 0 0 0 0 [0x82, 1, 7])) (fun t => t.reg 1 == 7 && t.pc == 256) = true := by
  decide

/-- V-PRN-2: PRN appends. -/
theorem test_prn_appends : after (step (State.emit (at_ 0 0 0 0 0 [0x47, 7]) 1)) (fun t =>
    t.out == [1, 244] && t.pc == 2) = true := by decide

/-- V-ADD-1. -/
theorem test_add_wraps : after (step (at_ 0 0 0xC8 1 0x64 [0xA0, 0, 1])) (fun t =>
    t.reg 0 == 0x2C && t.reg 1 == 0x64 && t.pc == 3 && t.fl == ⟨false, false, false⟩) = true := by decide

/-- V-ADD-3: the same register doubles. -/
theorem test_add_same : after (step (at_ 0 4 0xFF 0 0 [0xA0, 4, 4])) (fun t => t.reg 4 == 0xFE) = true := by decide

/-- V-MUL-3. -/
theorem test_mult_wraps : after (step (at_ 0 0 0xFF 1 0xFF [0xA2, 0, 1])) (fun t =>
    t.reg 0 == 1 && t.reg 1 == 0xFF) = true := by decide

/-- V-MUL-1. -/
theorem test_mult : after (step (at_ 0 0 8 1 9 [0xA2, 0, 1])) (fun t => t.reg 0 == 72 && t.pc == 3) = true := by decide

/-- V-CMP-5: `FL.E` stays 1. -/
theorem test_cmp_sticky : after (step (flagged true false false (at_ 0 0 3 1 9 [0xA7, 0, 1]))) (fun t =>
    t.fl == ⟨true, true, false⟩ && t.pc == 3) = true := by decide

/-- V-CMP-4: unsigned. -/
theorem test_cmp_unsigned : after (step (at_ 0 0 0x80 1 0x7F [0xA7, 0, 1])) (fun t => t.fl == ⟨false, false, true⟩) = true := by
  decide

/-- V-PUSH-1. -/
theorem test_push : after (step (at_ 3 0 9 1 0 [0x45, 0])) (fun t =>
    t.sp == 0xF3 && t.mem.read 0xF3 == 9 && t.reg 0 == 9 && t.pc == 5) = true := by decide

/-- V-PUSH-4: PUSH R7 stores the decremented SP. -/
theorem test_push_r7 : after (step (at_ 0 0 0 0 0 [0x45, 7])) (fun t =>
    t.sp == 0xF3 && t.mem.read 0xF3 == 0xF3) = true := by decide

/-- V-POP-2: SP wraps. -/
theorem test_pop_wraps : after (step (withByte 0xFF 0x33 (at_ 0 7 0xFF 0 0 [0x46, 0]))) (fun t =>
    t.reg 0 == 0x33 && t.sp == 0 && t.pc == 2) = true := by decide

/-- V-POP-3: POP R7. -/
theorem test_pop_r7 : after (step (withByte 0xF3 0x20 (at_ 0 7 0xF3 0 0 [0x46, 7]))) (fun t => t.sp == 0x21) = true := by decide

/-- V-CALL-2: the return address 256 is truncated to 0. -/
theorem test_call_at_fe : after (step (at_ 0xFE 1 0x20 0 0 [0x50, 1])) (fun t =>
    t.sp == 0xF3 && t.mem.read 0xF3 == 0 && t.pc == 0x20) = true := by decide

/-- V-CALL-3: CALL R7. -/
theorem test_call_r7 : after (step (at_ 0x10 0 0 0 0 [0x50, 7])) (fun t =>
    t.sp == 0xF3 && t.mem.read 0xF3 == 0x12 && t.pc == 0xF3) = true := by decide

/-- V-RET-1. -/
theorem test_ret : after (step (withByte 0xF3 8 (at_ 0x22 7 0xF3 0 0 [0x11]))) (fun t =>
    t.pc == 8 && t.sp == 0xF4 && t.mem.read 0xF3 == 8) = true := by decide

/-- V-JMP-3: the target from R7. -/
theorem test_jmp_r7 : after (step (at_ 0 0 0 0 0 [0x54, 7])) (fun t => t.pc == 0xF4 && t.sp == 0xF4) = true := by decide

/-- V-JEQ-1, V-JEQ-3. -/
theorem test_jeq :
    after (step (flagged true false false (at_ 0x0C 2 0x30 0 0 [0x55, 2]))) (fun t => t.pc == 0x30) = true ∧
      after (step (flagged false true true (at_ 0x0C 2 0x30 0 0 [0x55, 2]))) (fun t => t.pc == 0x0E) = true := by decide

/-- V-JNE-1, V-JNE-4. -/
theorem test_jne :
    after (step (at_ 0x0C 2 0x30 0 0 [0x56, 2])) (fun t => t.pc == 0x30) = true ∧
      after (step (flagged true true false (at_ 0x0C 2 0x30 0 0 [0x56, 2]))) (fun t => t.pc == 0x0E) = true := by decide

/-- V-F-3, last step: the opcode fetch at 256. -/
theorem test_fault_opcode_fetch : after (step (at_ 256 0 0 0 0 [])) (fun t =>
    t.cause == .addressError && t.diag == ⟨some 256, none, none, none, some 256⟩ && t.pc == 256) = true := by decide

/-- V-F-4, last step: the first operand fetch at 256. -/
theorem test_fault_first_operand : after (step (at_ 255 0 0 0 0 [0x47])) (fun t =>
    t.cause == .addressError && t.diag == ⟨some 255, some 0x47, none, none, some 256⟩) = true := by decide

/-- V-F-5, last step: the second operand fetch at 256 beats RegisterError. -/
theorem test_fault_second_operand : after (step (at_ 254 0 0 0 0 [0xA0, 9])) (fun t =>
    t.cause == .addressError && t.diag == ⟨some 254, some 0xA0, some 9, none, some 256⟩) = true := by decide

/-- V-F-7, V-F-8: `opa` is reported first, and a bad `opb` changes no register. -/
theorem test_fault_registers :
    after (step (at_ 0 0 0 0 0 [0xA0, 9, 0xC8])) (fun t =>
      t.cause == .registerError && t.diag == ⟨some 0, some 0xA0, some 9, some 0xC8, some 9⟩) = true ∧
    after (step (at_ 0 1 5 0 0 [0xA0, 1, 0xC8])) (fun t =>
      t.diag == ⟨some 0, some 0xA0, some 1, some 0xC8, some 0xC8⟩ && t.reg 1 == 5) = true := by decide

/-- V-F-14, last step: a PUSH with a bad operand moves nothing. -/
theorem test_fault_push_precise : after (step (at_ 3 0 5 0 0 [0x45, 0xFF])) (fun t =>
    t.sp == 0xF4 && t.mem.read 0xF3 == 0 && t.diag == ⟨some 3, some 0x45, some 0xFF, none, some 255⟩) = true := by decide

/-- V-F-2: the empty image. -/
theorem test_fault_unknown : after (step State.reset) (fun t =>
    t.cause == .unknownInstructionError && t.diag == ⟨some 0, some 0, none, none, some 0⟩ && t.pc == 0) = true := by decide

/-! ## Witnesses: a concrete input meets each statement's hypotheses -/

theorem witness_injective_map : Function.Injective opc := opc_injective

theorem witness_decoded_bytes : decodeWith opc [0xA0, 1, 2, 3] = .ok (.add 1 2, [3]) := by rfl

theorem witness_length_known :
    opcodeOf opc 0xA0 = some .add ∧ Opcode.add.arity ≤ [(0 : Byte), 1].length ∧ [(0 : Byte)].length < Opcode.add.arity := by
  decide

theorem witness_step_runs_decoded :
    (at_ 255 0 0 0 0 [0x01]).run = .running ∧ decode (codeBytes (at_ 255 0 0 0 0 [0x01])) = .ok (.hlt, []) :=
  ⟨by decide, by rfl⟩

theorem witness_running_and_halted : State.reset.run = .running ∧ (haltWith .hlt none [] State.reset).run = .halted := by decide

theorem witness_fetch_beyond :
    ((at_ 256 0 0 0 0 []).run = .running ∧ 256 ≤ (at_ 256 0 0 0 0 []).pc.toNat) ∧
    ((at_ 255 0 0 0 0 [0x47]).pc.toNat = 255 ∧
      opcodeOf opc ((at_ 255 0 0 0 0 [0x47]).mem.read 255) = some .prn ∧ 1 ≤ Opcode.prn.arity) ∧
    ((at_ 254 0 0 0 0 [0xA0, 9]).pc.toNat = 254 ∧
      opcodeOf opc ((at_ 254 0 0 0 0 [0xA0, 9]).mem.read 254) = some .add ∧ Opcode.add.arity = 2) := by decide

theorem witness_unknown_opcode :
    State.reset.run = .running ∧ State.reset.pc.toNat < 256 ∧ ∀ op, opc op ≠ State.reset.mem.read State.reset.pc.toNat :=
  ⟨by decide, by decide, fun op => by cases op <;> decide⟩

theorem witness_bad_register :
    ((Instr.cmp 7 8).regOperands.find? fun c => decide (8 ≤ c.toNat)) = some 8 ∧
      ((Instr.cmp 255 8).regOperands.find? fun c => decide (8 ≤ c.toNat)) = some 255 := by decide

/-- All three relations of CMP occur. -/
theorem witness_relations :
    ((at_ 0 0 5 1 5 []).reg 0).toNat = ((at_ 0 0 5 1 5 []).reg 1).toNat ∧
    ((at_ 0 0 0 1 255 []).reg 0).toNat < ((at_ 0 0 0 1 255 []).reg 1).toNat ∧
    ((at_ 0 0 255 1 0 []).reg 1).toNat < ((at_ 0 0 255 1 0 []).reg 0).toNat := by decide

theorem witness_canonical_memory : (at_ 253 0 0 0 0 [1, 0, 3]).mem.wf = true ∧ State.reset.mem.wf = true := by decide

theorem witness_register_seven_and_others : ((7 : RegIdx) = 7) ∧ ((6 : RegIdx) ≠ 7) ∧ ((0 : RegIdx) ≠ 7) ∧ ((1 : RegIdx) ≠ 2) := by
  decide

theorem witness_equal_flag_both_ways : (flagged true false false State.reset).fl.e = true ∧ State.reset.fl.e = false := by decide

theorem witness_alu (op : AluOp) : ∃ t, t = alu op 0 1 State.reset := ⟨_, rfl⟩

theorem witness_access_bounds : State.reset.mem.wf = true ∧ (255 : Nat) < 256 ∧ (256 : Nat) ≤ 256 := by decide

theorem witness_canonical_alike : ∀ a, Memory.read [(3, 7)] a = Memory.read (Memory.write [] 3 7) a := fun _ => rfl

/-- A step that stores, at the cell just below the reset stack pointer. -/
theorem witness_step_stores : ∃ t, step (at_ 0 0 9 1 0 [0x45, 0]) = .next t ∧ t.mem.read 0xF3 ≠ (at_ 0 0 9 1 0 [0x45, 0]).mem.read 0xF3 :=
  ⟨_, rfl, by decide⟩

/-- The pushed byte lands where the next instruction is, at the top of memory, and is HLT's; the machine runs. -/
theorem witness_store_at_next_instruction :
    (at_ 253 7 0 0 1 []).mem.wf = true ∧ (at_ 253 7 0 0 1 []).decSp.sp.toNat = (at_ 253 7 0 0 1 []).pc.toNat + 2 ∧
      ∃ t, exec (.push (regByte 0)) (at_ 253 7 0 0 1 []) = .next t ∧ t.run = .running ∧ t.reg 0 = opc .hlt :=
  ⟨by decide, by decide, _, rfl, rfl, by decide⟩

/-- CALL goes to the byte it stores: register 7, and another register that holds SP - 1; the byte is illegal at `pc` 0 and HLT's at
`pc` 255. -/
theorem witness_call_goes_to_stored_byte :
    (at_ 0 0 0 0 0 []).mem.wf = true ∧
    (∃ t, exec (.call (regByte 7)) (at_ 0 0 0 0 0 []) = .next t ∧ t.run = .running ∧ ∀ op, opc op ≠ 2) ∧
    ((1 : RegIdx) ≠ 7 ∧ (at_ 0 1 0xF3 0 0 []).reg 1 = (at_ 0 1 0xF3 0 0 []).decSp.sp) ∧
    BitVec.ofNat 8 ((at_ 255 0 0 0 0 []).pc.toNat + 2) = opc .hlt :=
  ⟨by decide, ⟨_, rfl, rfl, fun op => by cases op <;> decide⟩, by decide, by decide⟩

theorem witness_run_flags :
    ∃ t, Host.Core.run Sys2Proof.core 1 (flagged true true true (at_ 0 0 0 0 0 [0x47, 0])) = .next t ∧
      (flagged true true true (at_ 0 0 0 0 0 [0x47, 0])).fl = ⟨true, true, true⟩ := ⟨_, rfl, rfl⟩

/-- Two compares with opposite outcomes both answer a next state. -/
theorem witness_two_compares :
    ((at_ 0 0 3 1 9 []).reg 0).toNat < ((at_ 0 0 3 1 9 []).reg 1).toNat ∧
    ∃ t u, exec (.cmp (regByte 0) (regByte 1)) (at_ 0 0 3 1 9 []) = .next t ∧
      exec (.cmp (regByte 1) (regByte 0)) t = .next u := ⟨by decide, _, _, rfl, rfl⟩

theorem witness_flag_written : ∃ t, exec (.cmp 0 0) State.reset = .next t ∧ t.fl ≠ State.reset.fl := ⟨_, rfl, by decide⟩

theorem witness_flag_not_read : ∃ t, exec (.add 0 1) State.reset = .next t ∧ (Instr.add 0 1).opcode ≠ .jeq ∧ (Instr.add 0 1).opcode ≠ .jne :=
  ⟨_, rfl, by decide, by decide⟩

theorem witness_flag_read :
    ∃ t, exec (.jeq 0) State.reset = .next t ∧ (Instr.jeq 0).opcode = .jeq ∧ (⟨false, true, true⟩ : Flags).e = State.reset.fl.e :=
  ⟨_, rfl, by decide, by decide⟩

/-- A step of PRN, of HLT and of a fault: what OnlyPrnAppendsToOut, OutputAndDiagnosticAreNeverRead and
StepHaltsOnlyByHltOrPreciseFault speak of. -/
theorem witness_steps :
    (∃ t, step (at_ 0 0 72 1 0 [0x47, 0]) = .next t ∧ t.out = [72]) ∧
    (∃ t, step (at_ 0 0 0 0 0 [0x01]) = .next t ∧ t.cause = .hlt) ∧
    (∃ t, step State.reset = .next t ∧ t.cause = .unknownInstructionError) := ⟨⟨_, rfl, rfl⟩, ⟨_, rfl, rfl⟩, ⟨_, rfl, rfl⟩⟩

theorem witness_run_to_halt : ∃ t, Host.Core.run Sys2Proof.core 1 State.reset = .next t ∧ t.run = .halted := ⟨_, rfl, rfl⟩

/-- An instruction at a state with a register its row does not list (RegistersWrittenAsTheTableSays). -/
theorem witness_pop_writes : (∃ t, exec (.pop 3) State.reset = .next t) ∧ (0 : RegIdx) ∉ writtenRegs (.pop 3) := ⟨⟨_, rfl⟩, by decide⟩

/-- PUSH then POP, two of each, on registers other than 7. -/
theorem witness_stack_laws :
    State.reset.mem.wf = true ∧ (0 : RegIdx) ≠ 7 ∧ (6 : RegIdx) ≠ 7 ∧ (1 : RegIdx) ≠ 7 ∧ (2 : RegIdx) ≠ 7 ∧ (1 : RegIdx) ≠ 2 := by
  decide

/-- The state just after the CALL meets what RetReturnsPastTheCall asks of the state at the RET; pc0 is at its boundary 253. -/
theorem witness_call_ret :
    (at_ 253 1 0x20 0 0 []).mem.wf = true ∧ (at_ 253 1 0x20 0 0 []).pc.toNat ≤ 253 ∧
      ∃ t, exec (.call (regByte 1)) (at_ 253 1 0x20 0 0 []) = .next t ∧ t.mem.read t.sp.toNat = 255 :=
  ⟨by decide, by decide, _, rfl, by rfl⟩

theorem witness_image_bounds :
    (List.replicate 256 (1 : Byte)).length ≤ 256 ∧ 256 < (List.replicate 257 (1 : Byte)).length := by
  rw [List.length_replicate, List.length_replicate]
  omega

theorem witness_invariant_step : Inv State.reset ∧ ∃ t, step State.reset = .next t := ⟨by decide, _, rfl⟩

theorem witness_placed_word : State.reset.mem.wf = true ∧ decodeTableWord 8 0x01 = some .hlt := ⟨by decide, by rfl⟩

/-- Another injective opcode map: HLT and RET change places. -/
def swapped : Opcode → Byte
  | .hlt => opc .ret
  | .ret => opc .hlt
  | op => opc op

/-- What StepUnderAnyMapRunsTheDecodedInstruction asks, under a map other than the default. -/
theorem witness_other_map :
    Function.Injective swapped ∧ (at_ 0 0 0 0 0 [0x11]).run = .running ∧
      decodeWith swapped (codeBytes (at_ 0 0 0 0 0 [0x11])) = .ok (.hlt, [0, 0]) ∧
      codeBytes (at_ 0 0 0 0 0 [0x11]) = encodeWith swapped .hlt ++ [0, 0] :=
  ⟨fun a b h => by cases a <;> cases b <;> first | rfl | exact absurd h (by decide), by decide, by rfl, by rfl⟩

/-- R86: under the other map the byte 0x11 halts and is recorded, and 0x01 returns. -/
theorem test_step_under_other_map :
    after (stepWith swapped (at_ 0 0 0 0 0 [0x11])) (fun t =>
      t.run == .halted && t.cause == .hlt && t.diag == ⟨some 0, some 0x11, none, none, none⟩) = true ∧
    after (stepWith swapped (withByte 0xF3 8 (at_ 0x22 7 0xF3 0 0 [0x01]))) (fun t => t.pc == 8 && t.sp == 0xF4) = true := by
  decide

/-- Registers other than 7 on which the sum and the product overflow (SumIsModulo256WithNoFlagAndNoTrap,
ProductIsModulo256WithNoFlagAndNoTrap); both may be the same register. -/
theorem witness_overflow_off_register_seven :
    ((6 : RegIdx) ≠ 7 ∧ (0 : RegIdx) ≠ 7) ∧ 256 ≤ ((at_ 0 6 0xFF 0 2 []).reg 6).toNat + ((at_ 0 6 0xFF 0 2 []).reg 0).toNat ∧
      256 ≤ ((at_ 0 6 0xFF 0 2 []).reg 6).toNat * ((at_ 0 6 0xFF 0 2 []).reg 0).toNat := by decide

theorem witness_effect_without_map : (Instr.push 7).wellFormed = true ∧ Instr.push 7 ≠ .hlt := by decide

end Sys2Proof.Tests
end

section
/-! The checked accesses to memory (20_memory.md). -/

namespace Sys2Proof.Machine

/-- A checked write inside the address space stores one byte of the value and nothing else, and keeps the canonical form
(R53). -/
theorem memWrite_stores_one_byte {s : State} (hm : s.mem.wf = true) {a : Nat} (ha : a < 256) (v : Nat) :
    ∃ t, memWrite s a v = .ok t ∧ (t.mem.read a).toNat = v % 256 ∧ sameMemBut [a] s t ∧
      t = { s with mem := t.mem } ∧ t.mem.wf = true := by
  refine ⟨_, memWrite_ok s v ha, ?stored, ?otherCells, rfl, Memory.wf_write hm ha _⟩
  case stored => rw [Memory.read_write_same hm, trunc8_toNat]
  case otherCells => exact fun c hc => Memory.read_write_ne _ _ _ _ (List.ne_of_not_mem_cons hc)

/-- Settles O25: below 256 by the laws of the memory list, from 256 on by the bounds check of the two accesses. -/
theorem checkedAccessesReadAndWriteOneByte : Obligations.CheckedAccessesReadAndWriteOneByte := by
  intro s a v hm
  constructor
  · intro ha
    exact ⟨memRead_ok s ha, memWrite_stores_one_byte hm ha v⟩
  · intro ha
    exact ⟨memRead_error s ha, memWrite_error s v ha⟩

end Sys2Proof.Machine
end

section
/-! The arithmetic laws of the ALU and of ADD and MULT (42_alu.md). -/

namespace Sys2Proof.Machine

/-! ### The two results as bit-vector arithmetic -/

theorem aluAdd_eq_add (x y : Byte) : aluAdd x y = x + y := (BitVec.add_def x y).symm

theorem aluMultiply_eq_mul (x y : Byte) : aluMultiply x y = x * y := by
  rw [aluMultiply, trunc8, BitVec.ofNat_mul, BitVec.ofNat_toNat, BitVec.ofNat_toNat, BitVec.setWidth_eq, BitVec.setWidth_eq]

theorem aluAdd_toNat (x y : Byte) : (aluAdd x y).toNat = (x.toNat + y.toNat) % 256 := trunc8_toNat _

theorem aluMultiply_toNat (x y : Byte) : (aluMultiply x y).toNat = (x.toNat * y.toNat) % 256 := trunc8_toNat _

/-- The sum of the bytes read as two's-complement numbers has the same eight bits (R132). -/
theorem aluAdd_eq_ofInt_add_toInt (x y : Byte) : aluAdd x y = BitVec.ofInt 8 (x.toInt + y.toInt) := by
  rw [aluAdd_eq_add, BitVec.ofInt_add, BitVec.ofInt_toInt, BitVec.ofInt_toInt]

/-- Multiplying in 16 bits, where nothing is lost, and keeping the low byte gives the same result (R133). -/
theorem aluMultiply_eq_low_byte (x y : Byte) : aluMultiply x y = (x.setWidth 16 * y.setWidth 16).setWidth 8 := by
  rw [BitVec.setWidth_mul _ _ (by decide), BitVec.setWidth_setWidth_of_le _ (by decide),
    BitVec.setWidth_setWidth_of_le _ (by decide), BitVec.setWidth_eq, BitVec.setWidth_eq, aluMultiply_eq_mul]

theorem aluMultiply_zero (x : Byte) : aluMultiply x 0 = 0 := (aluMultiply_eq_mul x 0).trans BitVec.mul_zero

theorem zero_aluMultiply (x : Byte) : aluMultiply 0 x = 0 := (aluMultiply_eq_mul 0 x).trans BitVec.zero_mul

theorem aluMultiply_one (x : Byte) : aluMultiply x 1 = x := (aluMultiply_eq_mul x 1).trans (BitVec.mul_one x)

theorem one_aluMultiply (x : Byte) : aluMultiply 1 x = x := (aluMultiply_eq_mul 1 x).trans (BitVec.one_mul x)

/-! ### The two instructions on register operands -/

/-- ADD answers its one next state for every pair of registers, register 7 too (R135). -/
theorem exec_add_regByte (s : State) (a b : RegIdx) :
    exec (.add (regByte a) (regByte b)) s = .next ((s.setReg a (aluAdd (s.reg a) (s.reg b))).setPc (s.pc + 3)) :=
  exec_of_effect (.add a b)

/-- MULT answers its one next state for every pair of registers, register 7 too (R136). -/
theorem exec_mult_regByte (s : State) (a b : RegIdx) :
    exec (.mult (regByte a) (regByte b)) s = .next ((s.setReg a (aluMultiply (s.reg a) (s.reg b))).setPc (s.pc + 3)) :=
  exec_of_effect (.mult a b)

theorem setReg_setPc_reg_same (s : State) (r : RegIdx) (v : Byte) (p : PcWord) : ((s.setReg r v).setPc p).reg r = v := by
  rw [setPc_reg, reg_setReg_same]

/-- Writing a register and moving `pc` touches none of `RUN`, `CAUSE` and `DIAG`. -/
theorem sameStatus_setReg_setPc (s : State) (r : RegIdx) (v : Byte) (p : PcWord) :
    sameStatus s ((s.setReg r v).setPc p) := ⟨rfl, rfl, rfl⟩

/-! ### The two obligations -/

/-- Settles O48: the sum by bit-vector addition, whose signed and unsigned readings have the same bits; the instruction by its
one effect. -/
theorem sumIsModulo256WithNoFlagAndNoTrap : Obligations.SumIsModulo256WithNoFlagAndNoTrap := by
  refine ⟨?sum, ?instruction, ?examples⟩
  case sum => exact fun x y => ⟨aluAdd_toNat x y, aluAdd_eq_ofInt_add_toInt x y⟩
  case instruction =>
    intro s a b _ _
    exact ⟨_, exec_add_regByte s a b, setReg_setPc_reg_same .., rfl, sameStatus_setReg_setPc ..⟩
  case examples => decide

/-- Settles O49: the product by bit-vector multiplication, in 8 bits and in 16; the instruction by its one effect; the list of
operations by cases on the mnemonic. -/
theorem productIsModulo256WithNoFlagAndNoTrap : Obligations.ProductIsModulo256WithNoFlagAndNoTrap := by
  refine ⟨?product, ?instruction, ?examples, Opcode.mem_all⟩
  case product =>
    exact fun x y => ⟨aluMultiply_toNat x y, aluMultiply_eq_low_byte x y, aluMultiply_zero x, zero_aluMultiply x,
      aluMultiply_one x, one_aluMultiply x⟩
  case instruction =>
    intro s a b _ _
    exact ⟨_, exec_mult_regByte s a b, setReg_setPc_reg_same .., rfl, sameStatus_setReg_setPc ..⟩
  case examples => decide

end Sys2Proof.Machine
end

section
/-! Decoding and encoding (30_encoding.md sections 1 to 4). -/

namespace Sys2Proof

/-- What the decoder does after a known opcode byte `b0`: it takes as many bytes as the shape asks for (R80, R81). -/
def Shape.decode (b0 : Byte) : Shape → List Byte → Except DecodeError (Instr × List Byte)
  | .zero i, bs => .ok (i, bs)
  | .one _, [] => .error (.noFirstOperand b0)
  | .one f, a :: bs => .ok (f a, bs)
  | .two _, [] => .error (.noFirstOperand b0)
  | .two _, [a] => .error (.noSecondOperand b0 a)
  | .two f, a :: b :: bs => .ok (f a b, bs)

/-- The number of operand bytes a shape takes. -/
def Shape.arity : Shape → Nat
  | .zero _ => 0
  | .one _ => 1
  | .two _ => 2

theorem Opcode.shape_arity (op : Opcode) : op.shape.arity = op.arity := by cases op <;> rfl

theorem Shape.arity_le_two (sh : Shape) : sh.arity ≤ 2 := by cases sh <;> simp [Shape.arity]

theorem decodeWith_known {m : Opcode → Byte} {b0 : Byte} {op : Opcode} (h : opcodeOf m b0 = some op) (bs : List Byte) :
    decodeWith m (b0 :: bs) = op.shape.decode b0 bs := by
  simp only [decodeWith, h]
  rfl

/-- Bytes that decode begin with the byte of a known opcode, whose shape decodes the others. -/
theorem decodeWith_ok {m : Opcode → Byte} {bytes rest : List Byte} {i : Instr} (h : decodeWith m bytes = .ok (i, rest)) :
    ∃ b0 bs op, bytes = b0 :: bs ∧ opcodeOf m b0 = some op ∧ op.shape.decode b0 bs = .ok (i, rest) := by
  cases bytes with
  | nil => cases h
  | cons b0 bs =>
    cases ho : opcodeOf m b0 with
    | none =>
      simp only [decodeWith, ho] at h
      cases h
    | some op => exact ⟨b0, bs, op, rfl, ho, decodeWith_known ho bs ▸ h⟩

/-- An instruction's operand bytes are read back whole by the shape of its opcode (R81). -/
theorem shape_decode_operands (b0 : Byte) (i : Instr) (rest : List Byte) :
    i.opcode.shape.decode b0 (i.operands ++ rest) = .ok (i, rest) := by cases i <;> rfl

/-- The three ways in which a shape decodes bytes. -/
theorem Shape.decode_ok {sh : Shape} {b0 : Byte} {bs rest : List Byte} {i : Instr} (h : sh.decode b0 bs = .ok (i, rest)) :
    (sh = .zero i ∧ bs = rest) ∨ (∃ f a, sh = .one f ∧ i = f a ∧ bs = a :: rest) ∨
      ∃ f a b, sh = .two f ∧ i = f a b ∧ bs = a :: b :: rest := by
  unfold Shape.decode at h
  split at h <;> cases h
  · exact .inl ⟨rfl, rfl⟩
  · exact .inr (.inl ⟨_, _, rfl, rfl, rfl⟩)
  · exact .inr (.inr ⟨_, _, _, rfl, rfl, rfl⟩)

/-- What the shape of an opcode decodes is an instruction of that opcode, whose operands are the bytes taken. -/
theorem shape_decode_ok {op : Opcode} {b0 : Byte} {bs rest : List Byte} {i : Instr}
    (h : op.shape.decode b0 bs = .ok (i, rest)) : i.opcode = op ∧ bs = i.operands ++ rest := by
  obtain ⟨hs, rfl⟩ | ⟨f, a, hs, rfl, rfl⟩ | ⟨f, a, b, hs, rfl, rfl⟩ := Shape.decode_ok h <;>
    cases op <;> cases hs <;> exact ⟨rfl, rfl⟩

theorem Shape.decode_of_arity_le (sh : Shape) (b0 : Byte) {bs : List Byte} (h : sh.arity ≤ bs.length) :
    ∃ i, sh.decode b0 bs = .ok (i, bs.drop sh.arity) := by
  match sh, bs with
  | .zero i, _ => exact ⟨i, rfl⟩
  | .one f, a :: _ => exact ⟨f a, rfl⟩
  | .two f, a :: b :: _ => exact ⟨f a b, rfl⟩
  | .one _, [] => simp [Shape.arity] at h
  | .two _, [] | .two _, [_] => simp [Shape.arity] at h

theorem Shape.decode_of_lt_arity (sh : Shape) (b0 : Byte) {bs : List Byte} (h : bs.length < sh.arity) :
    ∃ e, sh.decode b0 bs = .error e := by
  match sh, bs with
  | .one _, [] => exact ⟨_, rfl⟩
  | .two _, [] => exact ⟨_, rfl⟩
  | .two _, [a] => exact ⟨_, rfl⟩
  | .zero _, _ => simp [Shape.arity] at h
  | .one _, _ :: _ | .two _, _ :: _ :: _ => simp [Shape.arity] at h

/-- Settles O1: the map gives the opcode byte back its mnemonic, and the shape of the mnemonic takes the operand bytes. -/
theorem decodeOfEncodeIsTheInstruction : Obligations.DecodeOfEncodeIsTheInstruction := by
  intro m hm i rest
  calc decodeWith m (encodeWith m i ++ rest)
      = i.opcode.shape.decode (m i.opcode) (i.operands ++ rest) := decodeWith_known (opcodeOf_map hm i.opcode) _
    _ = .ok (i, rest) := shape_decode_operands _ i rest

/-- Settles O2: the opcode byte is the map's, the bytes its shape takes are the operands. -/
theorem decodedBytesAreTheEncoding : Obligations.DecodedBytesAreTheEncoding := by
  intro m bytes rest i h
  obtain ⟨b0, bs, op, rfl, ho, hd⟩ := decodeWith_ok h
  obtain ⟨rfl, rfl⟩ := shape_decode_ok hd
  rw [← opcodeOf_some ho]
  rfl

/-- Settles O3: the opcode byte fixes the shape, and the shape the number of bytes. -/
theorem lengthIsFixedByTheOpcodeByte : Obligations.LengthIsFixedByTheOpcodeByte := by
  intro b0 op rest ho
  rw [← op.shape_arity, decode, decodeWith_known ho]
  refine ⟨op.shape.arity_le_two, fun hle => ?enough, op.shape.decode_of_lt_arity b0⟩
  case enough =>
    obtain ⟨i, hi⟩ := op.shape.decode_of_arity_le b0 hle
    exact ⟨i, (shape_decode_ok hi).1, hi⟩

/-- Settles O4: the first clause for every map, the count by trying the 256 bytes. -/
theorem illegalOpcodeBytesAreTheOther243 : Obligations.IllegalOpcodeBytesAreTheOther243 :=
  ⟨fun _ => opcodeOf_none, by decide +kernel⟩

/-- Settles O5, by running the decoder on the five words. -/
theorem exampleWordsDecode : Obligations.ExampleWordsDecode := ⟨by rfl, by rfl, by rfl, by rfl, by rfl⟩

end Sys2Proof
end

section
/-! The frame of every meaning and the invariant of the machine (60_exceptions.md; 10_state.md R31 to R33). -/

namespace Sys2Proof.Machine

/-! ### What an instruction can do to each part of the state -/

section
variable {m : Opcode → Byte} {s t : State} {i : Instr}

/-- How an instruction can leave the status: untouched, halted by HLT, or halted by RegisterError on an operand byte out of
range (R31, R190). -/
theorem Effect.status_cases (h : Effect m s i t) :
    sameStatus s t ∨ (i = .hlt ∧ t = haltWith .hlt none (encodeWith m .hlt) s) ∨
      ∃ b : Byte, (i.regOperands.find? fun c => decide (8 ≤ c.toNat)) = some b ∧
        t = raise ⟨.registerError, b.toNat⟩ (encodeWith m i) s := by
  cases h with
  | badRegister i b h => exact .inr (.inr ⟨b, h, rfl⟩)
  | hlt => exact .inr (.inl ⟨rfl, rfl⟩)
  | ldi | prn | add | mult | cmp | push | pop | call | ret | jmp | jeq | jne => exact .inl ⟨rfl, rfl, rfl⟩

/-- Only PUSH and CALL write memory, and they write one byte at SP - 1 (R55, R150). -/
theorem Effect.mem_cases (h : Effect m s i t) :
    t.mem = s.mem ∨ ∃ r v, (i = .push (regByte r) ∨ i = .call (regByte r)) ∧
      t.mem = s.mem.write s.decSp.sp.toNat (trunc8 v) := by
  rw [sp_decSp]
  cases h with
  | push r => exact .inr ⟨r, _, .inl rfl, rfl⟩
  | call r => exact .inr ⟨r, _, .inr rfl, rfl⟩
  | badRegister | hlt | ldi | prn | add | mult | cmp | pop | ret | jmp | jeq | jne => exact .inl rfl

/-- Only CMP writes the flags, and it writes what COMPARE gives (R29, R137). -/
theorem Effect.fl_cases (h : Effect m s i t) :
    t.fl = s.fl ∨ ∃ a b, i = .cmp (regByte a) (regByte b) ∧ t.fl = s.fl.compare (s.reg a) (s.reg b) := by
  cases h with
  | cmp a b => exact .inr ⟨a, b, rfl, rfl⟩
  | badRegister | hlt | ldi | prn | add | mult | push | pop | call | ret | jmp | jeq | jne => exact .inl rfl

/-- Only PRN writes OUT, and it appends its register's byte (R34). -/
theorem Effect.out_cases (h : Effect m s i t) :
    t.out = s.out ∨ ∃ r, i = .prn (regByte r) ∧ t.out = s.out ++ [s.reg r] := by
  cases h with
  | prn r => exact .inr ⟨r, rfl, rfl⟩
  | badRegister | hlt | ldi | add | mult | cmp | push | pop | call | ret | jmp | jeq | jne => exact .inl rfl

theorem branch_pc_cases (taken : Bool) (r : RegIdx) (s : State) :
    (branch taken r s).pc = s.pc + 2 ∨ ∃ b : Byte, (branch taken r s).pc = zext9 b := by
  cases taken with
  | false => exact .inl rfl
  | true => exact .inr ⟨_, rfl⟩

/-- Where an instruction leaves `pc`: where it was (on a halt), 2 or 3 further, or at a byte (R27, R160). -/
theorem Effect.pc_cases (h : Effect m s i t) :
    t.pc = s.pc ∨ t.pc = s.pc + 2 ∨ t.pc = s.pc + 3 ∨ ∃ b : Byte, t.pc = zext9 b := by
  cases h with
  | badRegister | hlt => exact .inl rfl
  | prn | push | pop => exact .inr (.inl rfl)
  | ldi | add | mult | cmp => exact .inr (.inr (.inl rfl))
  | call | ret | jmp => exact .inr (.inr (.inr ⟨_, rfl⟩))
  | jeq | jne => exact .inr ((branch_pc_cases ..).imp_right .inr)

/-- An instruction fetched from inside memory leaves `pc` at most 258 (R25). -/
theorem Effect.pc_le (h : Effect m s i t) (hp : s.pc.toNat < 256) : t.pc.toNat ≤ 258 := by
  obtain e | e | e | ⟨b, e⟩ := h.pc_cases <;> rw [e]
  · omega
  · rw [pc_add_two_toNat]; omega
  · rw [pc_add_three_toNat]; omega
  · rw [zext9_toNat]; omega

/-- Every instruction keeps the canonical form of memory (R50). -/
theorem Effect.mem_wf (h : Effect m s i t) (hm : s.mem.wf = true) : t.mem.wf = true := by
  obtain e | ⟨-, v, -, e⟩ := h.mem_cases <;> rw [e]
  · exact hm
  · exact Memory.wf_write hm s.decSp.sp.isLt _

end

/-! ### The record of a halt -/

/-- A register operand is the first or the second operand byte (R81, R85). -/
theorem mem_operands_of_mem_regOperands {i : Instr} {b : Byte} (h : b ∈ i.regOperands) :
    i.operands[0]? = some b ∨ i.operands[1]? = some b := by
  cases i with
  | hlt | ret => cases h
  | ldi a | prn a | push a | pop a | call a | jmp a | jeq a | jne a =>
    exact .inl (congrArg some (List.mem_singleton.mp h).symm)
  | add a b | mult a b | cmp a b =>
    obtain rfl | rfl := List.mem_pair.mp h
    · exact .inl rfl
    · exact .inr rfl

/-- The record of RegisterError agrees with its cause (R182, R185). -/
theorem agrees_registerError {m : Opcode → Byte} {i : Instr} {b : Byte} (s : State)
    (h : (i.regOperands.find? fun c => decide (8 ≤ c.toNat)) = some b) :
    (raise ⟨.registerError, b.toNat⟩ (encodeWith m i) s).diag.agrees .registerError = true := by
  have h8 : 8 ≤ b.toNat := by simpa using List.find?_some h
  obtain e | e := mem_operands_of_mem_regOperands (List.mem_of_find?_eq_some h) <;>
    simp [Diag.agrees, encodeWith, e, h8, b.isLt]

/-- The records of the errors of a fetch agree with their causes (R181, R183, R185). -/
theorem agrees_of_fetch_error {s : State} {e : FetchTrap} (hp : s.pc.toNat ≤ 258) (h : fetch s = .error e) :
    (raise e.trap e.fetched s).diag.agrees e.trap.cause = true := by
  obtain ⟨hpc, rfl⟩ | ⟨-, hc, hi⟩ | ⟨-, b, rfl⟩ := fetchWith_error h
  · have : s.pc.toNat = 256 ∨ s.pc.toNat = 257 ∨ s.pc.toNat = 258 := by omega
    simpa [Diag.agrees, or_assoc] using this
  · rw [hc]
    obtain hi | hi := hi <;> simp [Diag.agrees, hi]
  · simp [Diag.agrees]

/-- An error of a fetch is AddressError or UnknownInstructionError (R181, R183). -/
theorem cause_of_fetch_error {s : State} {e : FetchTrap} (h : fetch s = .error e) :
    e.trap.cause = .addressError ∨ e.trap.cause = .unknownInstructionError := by
  obtain ⟨-, rfl⟩ | ⟨-, hc, -⟩ | ⟨-, b, rfl⟩ := fetchWith_error h
  · exact .inl rfl
  · exact .inl hc
  · exact .inr rfl

/-! ### The invariant -/

/-- A halt keeps the invariant where the record agrees with a cause other than None. -/
theorem inv_haltWith {s : State} (hs : Inv s) {c : Cause} {n : Option Nat} {bs : List Byte}
    (ha : (haltWith c n bs s).diag.agrees c = true) (hc : c ≠ .none) : Inv (haltWith c n bs s) := by
  obtain ⟨hm, hp, -⟩ := hs
  exact ⟨hm, hp, ha, nofun, fun _ => ⟨hc, rfl⟩⟩

/-- The effect of an instruction fetched from inside memory keeps the invariant. -/
theorem Effect.inv {s t : State} {i : Instr} (h : Effect opc s i t) (hr : s.run = .running) (hp : s.pc.toNat < 256)
    (hs : Inv s) : Inv t := by
  obtain ⟨hrun, hcause, hdiag⟩ | ⟨rfl, rfl⟩ | ⟨b, hb, rfl⟩ := h.status_cases
  case inl =>
    obtain ⟨hm, -, ha, hnone, -⟩ := hs
    refine ⟨h.mem_wf hm, h.pc_le hp, ?_, fun _ => hcause.trans (hnone hr), fun hh => ?_⟩
    · rw [hcause, hdiag, ha]
    · rw [hrun, hr] at hh
      cases hh
  case inr.inl => exact inv_haltWith hs rfl nofun
  case inr.inr => exact inv_haltWith hs (agrees_registerError s hb) nofun

/-- Settles O42: a step enters a fault of the fetch, whose record agrees with its cause, or runs an instruction fetched from
inside memory. -/
theorem everyStepKeepsTheInvariant : Obligations.EveryStepKeepsTheInvariant := by
  intro s t hs h
  obtain ⟨hr, ⟨e, hf, rfl⟩ | ⟨i, hf, he⟩⟩ := step_next h
  · have ⟨_, hp, _⟩ := hs
    refine inv_haltWith hs (agrees_of_fetch_error hp hf) ?_
    obtain hc | hc := cause_of_fetch_error hf <;> rw [hc] <;> nofun
  · exact he.inv hr (fetchWith_ok_pc hf) hs

/-- Settles O41, by evaluating the invariant at the one state of reset. -/
theorem invariantHoldsAtReset : Obligations.InvariantHoldsAtReset := by
  unfold Obligations.InvariantHoldsAtReset
  decide

end Sys2Proof.Machine
end

section
/-! The step: the bytes it runs and the ways in which it halts (40_execution_cycle.md; 60_exceptions.md). -/

namespace Sys2Proof.Machine

/-! ### Bytes that stand at `pc` -/

/-- The bytes of a list stand in memory from `pc` on, inside the address space. -/
def bytesAtPc (s : State) (bytes : List Byte) : Prop :=
  ∀ k b, bytes[k]? = some b → s.pc.toNat + k < 256 ∧ s.mem.read (s.pc.toNat + k) = b

/-- Of consecutive addresses from `a` on, those below a bound are an unbroken run from `a` on. -/
theorem getElem?_filter_range'_lt {bound : Nat} (n : Nat) : ∀ {a k c : Nat},
    ((List.range' a n).filter (· < bound))[k]? = some c → c = a + k ∧ c < bound := by
  induction n with
  | zero => intro a k c h; cases h
  | succ n ih =>
    intro a k c h
    rw [List.range'_succ, List.filter_cons] at h
    by_cases ha : a < bound
    · rw [if_pos (by simpa using ha)] at h
      cases k with
      | zero => cases h; exact ⟨rfl, ha⟩
      | succ k =>
        obtain ⟨hc, hlt⟩ := ih h
        exact ⟨by omega, hlt⟩
    · rw [if_neg (by simpa using ha)] at h
      obtain ⟨hc, hlt⟩ := ih h
      omega

theorem codeBytes_eq (s : State) :
    codeBytes s = ((List.range' s.pc.toNat 3).filter (· < Config.memSize)).map s.mem.read := rfl

/-- The code bytes of a state stand at its `pc`. -/
theorem bytesAtPc_codeBytes (s : State) : bytesAtPc s (codeBytes s) := by
  intro k b h
  rw [codeBytes_eq, List.getElem?_map, Option.map_eq_some_iff] at h
  obtain ⟨c, hc, hb⟩ := h
  obtain ⟨rfl, hlt⟩ := getElem?_filter_range'_lt 3 hc
  exact ⟨hlt, hb⟩

/-- The operand fetch reads what the shape decodes from bytes that stand at `pc` (R104). -/
theorem fetchOperands_of_bytesAtPc {s : State} {b0 : Byte} {bs rest : List Byte} {sh : Shape} {i : Instr}
    (hb : bytesAtPc s (b0 :: bs)) (h : sh.decode b0 bs = .ok (i, rest)) : fetchOperands s b0 sh = .ok i := by
  obtain ⟨rfl, -⟩ | ⟨f, a, rfl, rfl, rfl⟩ | ⟨f, a, b, rfl, rfl, rfl⟩ := Shape.decode_ok h
  · rfl
  · obtain ⟨h1, e1⟩ := hb 1 a rfl
    simp only [fetchOperands, fetchByte_ok s _ h1, e1]
  · obtain ⟨h1, e1⟩ := hb 1 a rfl
    obtain ⟨h2, e2⟩ := hb 2 b rfl
    simp only [fetchOperands, fetchByte_ok s _ h1, fetchByte_ok s _ h2, e1, e2]

/-- The fetch gives what bytes that stand at `pc` decode to (R102 to R104). -/
theorem fetchWith_of_bytesAtPc {m : Opcode → Byte} {s : State} {bytes rest : List Byte} {i : Instr}
    (hb : bytesAtPc s bytes) (h : decodeWith m bytes = .ok (i, rest)) : fetchWith m s = .ok i := by
  obtain ⟨b0, bs, op, rfl, ho, hd⟩ := decodeWith_ok h
  obtain ⟨h0, e0⟩ := hb 0 b0 rfl
  rw [Nat.add_zero] at h0 e0
  rw [fetchWith_known h0 (e0 ▸ ho), e0, fetchOperands_of_bytesAtPc hb hd]

/-- Settles O45: the code bytes stand at `pc`, and under an injective map an encoding decodes to its instruction. -/
theorem stepUnderAnyMapRunsTheDecodedInstruction : Obligations.StepUnderAnyMapRunsTheDecodedInstruction := by
  intro m s i rest hr
  have decoded (h : decodeWith m (codeBytes s) = .ok (i, rest)) : stepWith m s = execWith m i s :=
    stepWith_of_fetch_ok hr (fetchWith_of_bytesAtPc (bytesAtPc_codeBytes s) h)
  refine ⟨decoded, fun hm he => decoded ?_⟩
  rw [he]
  exact decodeOfEncodeIsTheInstruction m hm i rest

/-- Settles O6: the code bytes stand at `pc`. -/
theorem stepRunsTheDecodedInstruction : Obligations.StepRunsTheDecodedInstruction := fun s _ _ hr h =>
  step_of_fetch_ok hr (fetchWith_of_bytesAtPc (bytesAtPc_codeBytes s) h)

/-! ### A word placed at `pc` -/

theorem wordBytes_length (nbits w : Nat) : (wordBytes nbits w).length = 3 := rfl

/-- A placed word fits below the end of memory (log 17). -/
theorem placeWord_fits (s : State) (bytes : List Byte) (h : bytes.length ≤ 256) :
    (placeWord s bytes).pc.toNat + bytes.length ≤ 256 := by
  unfold placeWord
  dsimp only
  split
  · assumption
  · simpa using h

theorem bytesAtPc_placeWord {s : State} (hm : s.mem.wf = true) {bytes : List Byte} (h : bytes.length ≤ 256) :
    bytesAtPc (placeWord s bytes) bytes := by
  intro k b hk
  obtain ⟨hlt, rfl⟩ := List.getElem?_eq_some_iff.mp hk
  have hfit := placeWord_fits s bytes h
  exact ⟨by omega, Memory.read_writeBytes hm bytes hfit k hlt⟩

theorem decode_of_decodeTableWord {nbits w : Nat} {i : Instr} (h : decodeTableWord nbits w = some i) :
    ∃ rest, decode (wordBytes nbits w) = .ok (i, rest) := by
  unfold decodeTableWord at h
  split at h <;> cases h
  exact ⟨_, by assumption⟩

/-- Settles O44: the placed bytes stand at the `pc` of the state they are placed in. -/
theorem placedWordIsTheNextInstruction : Obligations.PlacedWordIsTheNextInstruction := by
  intro s nbits w i hm h
  obtain ⟨rest, hd⟩ := decode_of_decodeTableWord h
  exact step_of_fetch_ok rfl (fetchWith_of_bytesAtPc (bytesAtPc_placeWord hm (by rw [wordBytes_length]; decide)) hd)

/-! ### When a step is enabled, and how a fetch halts -/

/-- Settles O7, by the three outcomes of a step. -/
theorem stepIsEnabledExactlyWhenRunning : Obligations.StepIsEnabledExactlyWhenRunning := by
  intro s
  refine ⟨fun hr => ?_, step_halted⟩
  obtain ⟨hh, -⟩ | ⟨-, e, -, hs⟩ | ⟨-, i, t, -, hs, -⟩ := step_cases s
  · rw [hr] at hh
    cases hh
  · exact ⟨_, hs⟩
  · exact ⟨t, hs⟩

/-- An operand of the opcode lies beyond memory where the first operand byte does (R104). -/
theorem fetchOperands_first_beyond {s : State} (b0 : Byte) {op : Opcode} (ha : 1 ≤ op.arity) (hp : 256 ≤ s.pc.toNat + 1) :
    fetchOperands s b0 op.shape = .error ⟨⟨.addressError, s.pc.toNat + 1⟩, [b0]⟩ := by
  rw [← op.shape_arity] at ha
  cases h : op.shape with
  | zero i => simp [h, Shape.arity] at ha
  | one f | two f => simp only [fetchOperands, fetchByte_error s _ hp]

theorem fetchOperands_second_beyond {s : State} (b0 : Byte) {op : Opcode} (ha : op.arity = 2) (hp : s.pc.toNat + 1 < 256)
    (hp' : 256 ≤ s.pc.toNat + 2) : fetchOperands s b0 op.shape =
      .error ⟨⟨.addressError, s.pc.toNat + 2⟩, [b0, s.mem.read (s.pc.toNat + 1)]⟩ := by
  rw [← op.shape_arity] at ha
  cases h : op.shape with
  | zero i | one f => simp [h, Shape.arity] at ha
  | two f => simp only [fetchOperands, fetchByte_ok s _ hp, fetchByte_error s _ hp']

/-- Settles O8: one law of the fetch per place at which it leaves memory, then fault entry. -/
theorem fetchBeyondMemoryHalts : Obligations.FetchBeyondMemoryHalts := by
  intro s hr
  refine ⟨fun hp => ?opcode, fun hp op ho ha => ?first, fun hp op ho ha => ?second⟩
  case opcode => exact step_of_fetch_error hr (fetchWith_beyond opc hp)
  case first =>
    have hf : fetch s = .error ⟨⟨.addressError, 256⟩, [s.mem.read 255]⟩ := by
      rw [fetch, fetchWith_known (by omega) (by rwa [hp]), fetchOperands_first_beyond _ ha (by omega), hp]
    exact step_of_fetch_error hr hf
  case second =>
    have hf : fetch s = .error ⟨⟨.addressError, 256⟩, [s.mem.read 254, s.mem.read 255]⟩ := by
      rw [fetch, fetchWith_known (by omega) (by rwa [hp]), fetchOperands_second_beyond _ ha (by omega) (by omega), hp]
    exact step_of_fetch_error hr hf

/-- A byte outside the map at `pc` halts a running machine with UnknownInstructionError (R103, R183). -/
theorem step_of_unknown_opcode {s : State} (hr : s.run = .running) (hp : s.pc.toNat < 256)
    (hb : ∀ op, opc op ≠ s.mem.read s.pc.toNat) :
    step s = .next { s with run := .halted, cause := .unknownInstructionError,
                            diag := ⟨some s.pc, some (s.mem.read s.pc.toNat), none, none,
                                     some (s.mem.read s.pc.toNat).toNat⟩ } :=
  step_of_fetch_error hr (fetchWith_unknown hp (opcodeOf_none.mpr hb))

/-- HLT's byte at `pc` halts a running machine normally (R121). -/
theorem step_of_hlt_opcode {s : State} (hr : s.run = .running) (hp : s.pc.toNat < 256)
    (hb : s.mem.read s.pc.toNat = opc .hlt) :
    step s = .next { s with run := .halted, cause := .hlt, diag := ⟨some s.pc, some (opc .hlt), none, none, none⟩ } := by
  have hf : fetch s = .ok .hlt := fetchWith_known (op := .hlt) hp (by rw [hb, opcodeOf_opc])
  exact (step_of_fetch_ok hr hf).trans (exec_of_effect .hlt)

/-- Settles O9, by the law of an unknown opcode byte; a halted state has no step. -/
theorem unknownOpcodeHalts : Obligations.UnknownOpcodeHalts := fun _ hr hp hb =>
  ⟨_, step_of_unknown_opcode hr hp hb, step_halted rfl, rfl⟩

/-- Settles O10: the one effect an instruction has where an operand is out of range. -/
theorem registerOperandOutOfRangeHalts : Obligations.RegisterOperandOutOfRangeHalts := fun i _ b h =>
  exec_of_effect (.badRegister i b h)

/-- Settles O33: a fault of the fetch or, by the effect of the instruction fetched, no halt, HLT or RegisterError. -/
theorem stepHaltsOnlyByHltOrPreciseFault : Obligations.StepHaltsOnlyByHltOrPreciseFault := by
  intro s t h
  obtain ⟨hr, ⟨e, hf, rfl⟩ | ⟨i, hf, he⟩⟩ := step_next h
  · have hc : e.trap.cause = .addressError ∨ e.trap.cause = .registerError ∨ e.trap.cause = .unknownInstructionError :=
      (cause_of_fetch_error hf).imp_right .inr
    exact .inr (.inr ⟨hc, rfl, rfl⟩)
  · obtain ⟨hrun, hcause, hdiag⟩ | ⟨rfl, rfl⟩ | ⟨b, -, rfl⟩ := he.status_cases
    · exact .inl ⟨hrun.trans hr, hcause, hdiag⟩
    · exact .inr (.inl ⟨hf, rfl⟩)
    · exact .inr (.inr ⟨.inr (.inl rfl), rfl, rfl⟩)

/-! ### Runs -/

/-- A run that ends halted stops at the next step, however much longer it is (R192). -/
theorem run_past_halt {t : State} (ht : t.run = .halted) (k : Nat) :
    ∀ (n : Nat) (s : State), Host.Core.run Sys2Proof.core n s = .next t →
      Host.Core.run Sys2Proof.core (n + k + 1) s = .fault .halted := by
  intro n
  induction n with
  | zero =>
    intro s h
    cases h
    exact run_succ_of_fault (step_halted ht) _
  | succ n ih =>
    intro s h
    obtain ⟨u, hu, h⟩ := run_succ_next h
    rw [show n + 1 + k + 1 = n + k + 1 + 1 by omega, run_succ_of_next hu]
    exact ih u h

/-- Settles O34, by the law of a run that has halted. -/
theorem haltedIsTerminal : Obligations.HaltedIsTerminal := fun n k s _ h ht => ⟨run_past_halt ht k n s h, rfl⟩

/-- A halted state with the invariant ended normally or fatally (R109). -/
theorem ended_of_inv {s : State} (hs : Inv s) (hr : s.run = .halted) : s.endedNormally ∨ s.endedFatally := by
  obtain ⟨-, -, -, -, hh⟩ := hs
  by_cases hc : s.cause = .hlt
  · exact .inl ⟨hr, hc⟩
  · exact .inr ⟨hr, hc, (hh hr).1⟩

/-- A run from a state with the invariant keeps it, or stopped because a state with the invariant had halted (R108 to R110). -/
theorem run_keeps_inv_or_halts (n : Nat) : ∀ s : State, Inv s →
    (∃ t, Host.Core.run Sys2Proof.core n s = .next t ∧ Inv t) ∨
      (∃ k t, k < n ∧ Host.Core.run Sys2Proof.core k s = .next t ∧ Inv t ∧
        (t.endedNormally ∨ t.endedFatally) ∧ Host.Core.run Sys2Proof.core n s = .fault .halted) := by
  induction n with
  | zero => exact fun s hs => .inl ⟨s, rfl, hs⟩
  | succ n ih =>
    intro s hs
    obtain ⟨enabled, stuck⟩ := stepIsEnabledExactlyWhenRunning s
    cases hr : s.run with
    | halted => exact .inr ⟨0, s, n.succ_pos, rfl, hs, ended_of_inv hs hr, run_succ_of_fault (stuck hr) n⟩
    | running =>
      obtain ⟨u, hu⟩ := enabled hr
      rw [run_succ_of_next hu]
      obtain h | ⟨k, t, hk, hrun, hrest⟩ := ih u (everyStepKeepsTheInvariant s u hs hu)
      · exact .inl h
      · exact .inr ⟨k + 1, t, by omega, (run_succ_of_next hu k).trans hrun, hrest⟩

/-! ### Boot -/

theorem boot_of_length_le {image : List Byte} (h : image.length ≤ 256) (s : State) :
    boot image s = .next { State.reset with mem := Memory.writeBytes [] 0 image } := if_pos h

theorem wf_nil : Memory.wf [] = true := rfl

/-- Settles O40: the laws of consecutive writes, over the empty memory of reset. -/
theorem bootStagesTheImage : Obligations.BootStagesTheImage := by
  refine fun image s => ⟨fun h => ⟨_, boot_of_length_le h s, ?image, ?others, rfl⟩, fun h => ?refused⟩
  case image =>
    intro i hi
    have := Memory.read_writeBytes wf_nil image (a := 0) (by omega) i hi
    rwa [Nat.zero_add] at this
  case others => exact fun i hi => Memory.read_writeBytes_outside [] image 0 i (by omega)
  case refused => exact if_neg (by simpa using h)

/-- A staged image keeps the invariant of reset. -/
theorem inv_boot {image : List Byte} (h : image.length ≤ 256) :
    Inv { State.reset with mem := Memory.writeBytes [] 0 image } := by
  obtain ⟨-, hrest⟩ := invariantHoldsAtReset
  exact ⟨Memory.wf_writeBytes wf_nil image (by omega), hrest⟩

/-- Settles O43: the booted state has the invariant, and runs keep it until they halt. -/
theorem bootedRunsNeverGetStuck : Obligations.BootedRunsNeverGetStuck := fun _ s0 h =>
  ⟨_, boot_of_length_le h s0, fun n => run_keeps_inv_or_halts n _ (inv_boot h)⟩

theorem reset_reg_of_ne_seven : ∀ r : RegIdx, r ≠ 7 → State.reset.reg r = 0 := by decide

/-- Settles O39: memory is empty, and registers 0 to 6 by trying each. -/
theorem resetLeavesTheTableOfValues : Obligations.ResetLeavesTheTableOfValues := fun _ =>
  ⟨fun _ => rfl, rfl, reset_reg_of_ne_seven, rfl, rfl, rfl, rfl, rfl, rfl⟩

end Sys2Proof.Machine
end

section
/-! What each instruction does and leaves unchanged (41 to 44), one effect per instruction. -/

namespace Sys2Proof.Machine

/-! ### Facts that the frames share -/

@[simp] theorem trunc8_byte_toNat (b : Byte) : trunc8 b.toNat = b := by simp [trunc8]

theorem sp_decSp_toNat (s : State) : s.decSp.sp.toNat = (s.sp.toNat + 255) % 256 := by rw [sp_decSp, byte_pred_toNat]

theorem sp_incSp_toNat (s : State) : s.incSp.sp.toNat = (s.sp.toNat + 1) % 256 := by rw [sp_incSp, byte_succ_toNat]

/-- The register as PUSH and CALL read it, after the decrement (R151, R161; decision D11). -/
theorem decSp_reg_eq (s : State) (r : RegIdx) : s.decSp.reg r = if r = 7 then s.decSp.sp else s.reg r := by
  rw [reg_decSp, sp_decSp]

theorem sameRegsBut_setReg (s : State) (r : RegIdx) (v : Byte) : sameRegsBut [r] s (s.setReg r v) := fun _ hq =>
  reg_setReg_ne _ _ _ _ (List.ne_of_not_mem_cons hq)

theorem sameRegsBut_decSp (s : State) : sameRegsBut [7] s s.decSp := sameRegsBut_setReg s 7 _

theorem sameRegsBut_incSp (s : State) : sameRegsBut [7] s s.incSp := sameRegsBut_setReg s 7 _

/-- A push changes no cell but the one at SP - 1 (R150). -/
theorem sameMemBut_afterPush (s : State) (v : Nat) : sameMemBut [s.decSp.sp.toNat] s (afterPush s v) := fun _ hc =>
  Memory.read_write_ne _ _ _ _ (sp_decSp s ▸ List.ne_of_not_mem_cons hc)

/-- A push stores the low byte of its value at SP - 1 (R53, R150). -/
theorem afterPush_mem_read {s : State} (hm : s.mem.wf = true) (v : Nat) :
    (afterPush s v).mem.read s.decSp.sp.toNat = trunc8 v := by
  rw [afterPush_mem, sp_decSp, Memory.read_write_same hm]

/-! ### System and data movement -/

/-- Settles O11, by HLT's one effect. -/
theorem hltHaltsNormally : Obligations.HltHaltsNormally := fun _ => exec_of_effect .hlt

/-- Settles O12, by LDI's one effect. -/
theorem ldiLoadsTheImmediate : Obligations.LdiLoadsTheImmediate := fun s r v =>
  ⟨_, exec_of_effect (.ldi r v), setReg_setPc_reg_same .., sameRegsBut_setReg s r v, pc_add_three_toNat _,
    rfl, fun _ _ => rfl, rfl, rfl, rfl, rfl⟩

/-- Settles O13, by PRN's one effect. -/
theorem prnEmitsTheRegister : Obligations.PrnEmitsTheRegister := fun _ r =>
  ⟨_, exec_of_effect (.prn r), rfl, fun _ _ => rfl, pc_add_two_toNat _, rfl, fun _ _ => rfl, rfl, rfl, rfl⟩

/-! ### The ALU -/

/-- Settles O14, by ADD's one effect and the value of the sum. -/
theorem addWrapsSilently : Obligations.AddWrapsSilently := by
  refine fun s a b => ⟨_, exec_add_regByte s a b, ?sum, sameRegsBut_setReg s a _, pc_add_three_toNat _,
    rfl, fun _ _ => rfl, rfl, sameStatus_setReg_setPc ..⟩
  case sum => rw [setReg_setPc_reg_same, aluAdd_toNat]

/-- Settles O15, by MULT's one effect and the value of the product. -/
theorem multKeepsTheLowByte : Obligations.MultKeepsTheLowByte := by
  refine fun s a b => ⟨_, exec_mult_regByte s a b, ?product, sameRegsBut_setReg s a _, pc_add_three_toNat _,
    rfl, fun _ _ => rfl, rfl, sameStatus_setReg_setPc ..⟩
  case product => rw [setReg_setPc_reg_same, aluMultiply_toNat]

theorem compare_of_eq (f : Flags) {a b : Byte} (h : a.toNat = b.toNat) : f.compare a b = ⟨true, f.l, f.g⟩ := if_pos h

theorem compare_of_lt (f : Flags) {a b : Byte} (h : a.toNat < b.toNat) : f.compare a b = ⟨f.e, true, f.g⟩ :=
  (if_neg h.ne).trans (if_pos h)

theorem compare_of_gt (f : Flags) {a b : Byte} (h : b.toNat < a.toNat) : f.compare a b = ⟨f.e, f.l, true⟩ :=
  (if_neg h.ne').trans (if_neg h.not_gt)

/-- COMPARE sets one flag and keeps the other two, whatever it compares (R137). -/
theorem compare_sets_one_flag (f : Flags) (a b : Byte) :
    f.compare a b = ⟨true, f.l, f.g⟩ ∨ f.compare a b = ⟨f.e, true, f.g⟩ ∨ f.compare a b = ⟨f.e, f.l, true⟩ :=
  (compare_cases f a b).imp And.right (Or.imp And.right And.right)

/-- CMP answers its one next state for every pair of registers (R137). -/
theorem exec_cmp_regByte (s : State) (a b : RegIdx) :
    exec (.cmp (regByte a) (regByte b)) s = .next ((s.setFlags (s.fl.compare (s.reg a) (s.reg b))).setPc (s.pc + 3)) :=
  exec_of_effect (.cmp a b)

/-- Settles O16, by the three relations. -/
theorem cmpSetsOneFlagAndKeepsTheRest : Obligations.CmpSetsOneFlagAndKeepsTheRest := fun s a b =>
  ⟨_, exec_cmp_regByte s a b, compare_of_eq s.fl, compare_of_lt s.fl, compare_of_gt s.fl, fun _ _ => rfl,
    pc_add_three_toNat _, fun _ _ => rfl, rfl, rfl, rfl, rfl⟩

/-- Settles O24, by cases on the operation. -/
theorem aluTouchesOnlyItsTarget : Obligations.AluTouchesOnlyItsTarget := by
  rintro op a b s t rfl
  cases op with
  | add =>
    refine ⟨fun _ => ⟨?sum, sameRegsBut_setReg s a _, rfl⟩, nofun, nofun, fun _ _ => rfl, rfl, rfl, rfl, rfl, rfl⟩
    case sum => rw [alu, reg_setReg_same, aluAdd_toNat]
  | multiply =>
    refine ⟨nofun, fun _ => ⟨?product, sameRegsBut_setReg s a _, rfl⟩, nofun, fun _ _ => rfl, rfl, rfl, rfl, rfl, rfl⟩
    case product => rw [alu, reg_setReg_same, aluMultiply_toNat]
  | compare =>
    exact ⟨nofun, nofun, fun _ => ⟨fun _ _ => rfl, compare_sets_one_flag ..⟩, fun _ _ => rfl, rfl, rfl, rfl, rfl, rfl⟩

/-! ### The stack and control transfer -/

/-- Settles O17, by PUSH's one effect and the laws of a push. -/
theorem pushDecrementsThenStores : Obligations.PushDecrementsThenStores := by
  refine fun s r => ⟨_, exec_of_effect (.push r), sp_decSp_toNat s, sameRegsBut_decSp s, fun hm => ?stored,
    sameMemBut_afterPush s _, pc_add_two_toNat _, rfl, rfl, rfl, rfl, rfl⟩
  case stored => rw [setPc_mem, afterPush_mem_read hm, trunc8_byte_toNat, decSp_reg_eq]

/-- Settles O18, by POP's one effect; SP is read after the register is written, which tells register 7 from the others. -/
theorem popLoadsThenIncrements : Obligations.PopLoadsThenIncrements := by
  refine fun s r => ⟨_, exec_of_effect (.pop r), fun hr => ⟨?loaded, ?sp⟩, ?seven, ?otherRegs, fun _ _ => rfl,
    pc_add_two_toNat _, rfl, rfl, rfl, rfl, rfl⟩
  case loaded => rw [setPc_reg, reg_incSp, if_neg hr, reg_setReg_same]
  case sp => rw [setPc_sp, sp_incSp_toNat, sp_eq_reg, reg_setReg_ne _ _ _ _ hr.symm, ← sp_eq_reg]
  case seven =>
    rintro rfl
    rw [setPc_sp, sp_incSp_toNat, sp_eq_reg (s.setReg _ _), reg_setReg_same]
  case otherRegs =>
    intro q hq
    obtain ⟨hr, h7⟩ : q ≠ r ∧ q ≠ 7 := by simpa using hq
    rw [setPc_reg, reg_incSp, if_neg h7, reg_setReg_ne _ _ _ _ hr]

/-- Settles O19, by CALL's one effect and the laws of a push. -/
theorem callPushesTheReturnAddress : Obligations.CallPushesTheReturnAddress := by
  refine fun s r => ⟨_, exec_of_effect (.call r), sp_decSp_toNat s, sameRegsBut_decSp s, fun hm => ?stored,
    sameMemBut_afterPush s _, ?target, rfl, rfl, rfl, rfl, rfl⟩
  case stored => rw [setPc_mem, afterPush_mem_read hm, trunc8_toNat]
  case target => rw [setPc_pc, zext9_toNat, decSp_reg_eq]

/-- Settles O20, by RET's one effect. -/
theorem retPopsThePc : Obligations.RetPopsThePc := fun s =>
  ⟨_, exec_of_effect .ret, zext9_toNat _, sp_incSp_toNat s, sameRegsBut_incSp s, fun _ _ => rfl, rfl, rfl, rfl, rfl, rfl⟩

theorem branch_taken_toNat (r : RegIdx) (s : State) : (branch true r s).pc.toNat = (s.reg r).toNat := zext9_toNat _

theorem branch_not_taken_advanced (r : RegIdx) (s : State) : advanced 2 s (branch false r s) := pc_add_two_toNat _

/-- Settles O21, by JMP's one effect. -/
theorem jmpGoesToTheRegister : Obligations.JmpGoesToTheRegister := fun s r =>
  ⟨_, exec_of_effect (.jmp r), branch_taken_toNat r s, fun _ _ => rfl, fun _ _ => rfl, rfl, rfl, rfl, rfl, rfl⟩

/-- Settles O22, by JEQ's one effect, the branch on `FL.E`. -/
theorem jeqJumpsWhenEqualIsSet : Obligations.JeqJumpsWhenEqualIsSet := fun s r =>
  ⟨_, exec_of_effect (.jeq r), fun he => he ▸ branch_taken_toNat r s, fun he => he ▸ branch_not_taken_advanced r s,
    fun _ _ => rfl, fun _ _ => rfl, rfl, rfl, rfl, rfl, rfl⟩

/-- Settles O23, by JNE's one effect, the branch on the negation of `FL.E`. -/
theorem jneJumpsWhenEqualIsClear : Obligations.JneJumpsWhenEqualIsClear := fun s r =>
  ⟨_, exec_of_effect (.jne r), fun he => he ▸ branch_taken_toNat r s, fun he => he ▸ branch_not_taken_advanced r s,
    fun _ _ => rfl, fun _ _ => rfl, rfl, rfl, rfl, rfl, rfl⟩

end Sys2Proof.Machine
end

section
/-! Memory as the only store of the machine: its unique form, who writes it, and the laws of the stack (20_memory.md; 43_stack.md). -/

namespace Sys2Proof.Machine

/-! ### The canonical form is unique -/

theorem Memory.wfFrom_cons {lo a : Nat} {v : Byte} {m : Memory} :
    Memory.wfFrom lo ((a, v) :: m) = true ↔ lo ≤ a ∧ a < 256 ∧ v ≠ 0 ∧ Memory.wfFrom (a + 1) m = true := by
  simp [Memory.wfFrom, and_assoc]

@[simp] theorem Memory.read_cons_self (a : Nat) (v : Byte) (m : Memory) : Memory.read ((a, v) :: m) a = v := if_pos rfl

theorem Memory.read_cons_ne {a c : Nat} (h : c ≠ a) (v : Byte) (m : Memory) : Memory.read ((a, v) :: m) c = m.read c :=
  if_neg h

/-- The first cell of a canonical memory is listed at the same place in one that reads alike: below its own first cell that one
reads 0. -/
theorem Memory.first_le_of_read_eq {lo a b : Nat} {v w : Byte} {m n : Memory} (hm : Memory.wfFrom lo ((a, v) :: m) = true)
    (h : Memory.read ((a, v) :: m) a = Memory.read ((b, w) :: n) a) (hn : Memory.wfFrom lo ((b, w) :: n) = true) : b ≤ a := by
  obtain ⟨-, -, hv, -⟩ := Memory.wfFrom_cons.mp hm
  obtain ⟨-, hb, hw, hrest⟩ := Memory.wfFrom_cons.mp hn
  by_contra hlt
  have hn' : Memory.wfFrom b ((b, w) :: n) = true := Memory.wfFrom_cons.mpr ⟨le_rfl, hb, hw, hrest⟩
  rw [Memory.read_cons_self, Memory.read_of_lt hn' (Nat.lt_of_not_le hlt)] at h
  exact hv h

/-- The tails of two canonical memories with the same first cell read alike if the memories do. -/
theorem Memory.tail_read_eq {a : Nat} {v : Byte} {m n : Memory} (hm : Memory.wfFrom (a + 1) m = true)
    (hn : Memory.wfFrom (a + 1) n = true) (h : ∀ c, Memory.read ((a, v) :: m) c = Memory.read ((a, v) :: n) c) (c : Nat) :
    m.read c = n.read c := by
  by_cases hc : c = a
  · rw [Memory.read_of_lt hm (by omega), Memory.read_of_lt hn (by omega)]
  · rw [← Memory.read_cons_ne hc v m, h, Memory.read_cons_ne hc]

theorem Memory.eq_nil_of_read {lo : Nat} {m : Memory} (hm : Memory.wfFrom lo m = true) (h : ∀ c, m.read c = 0) : m = [] := by
  cases m with
  | nil => rfl
  | cons e m =>
    obtain ⟨a, v⟩ := e
    obtain ⟨-, -, hv, -⟩ := Memory.wfFrom_cons.mp hm
    exact absurd (h a) (by rwa [Memory.read_cons_self])

theorem Memory.eq_of_read_eq (m : Memory) : ∀ {n : Memory} {lo : Nat}, Memory.wfFrom lo m = true →
    Memory.wfFrom lo n = true → (∀ c, m.read c = n.read c) → m = n := by
  induction m with
  | nil => exact fun _ hn h => (Memory.eq_nil_of_read hn fun c => (h c).symm).symm
  | cons e m ih =>
    obtain ⟨a, v⟩ := e
    intro n lo hm hn h
    cases n with
    | nil => exact Memory.eq_nil_of_read hm h
    | cons e' n =>
      obtain ⟨b, w⟩ := e'
      obtain rfl : a = b := Nat.le_antisymm (Memory.first_le_of_read_eq hn (h b).symm hm) (Memory.first_le_of_read_eq hm (h a) hn)
      obtain rfl : v = w := by simpa using h a
      obtain ⟨-, -, -, hm⟩ := Memory.wfFrom_cons.mp hm
      obtain ⟨-, -, -, hn⟩ := Memory.wfFrom_cons.mp hn
      rw [ih hm hn (Memory.tail_read_eq hm hn h)]

/-- Settles O26, by induction on one of the lists. -/
theorem canonicalMemoriesThatReadAlikeAreEqual : Obligations.CanonicalMemoriesThatReadAlikeAreEqual := fun m _ hm hn h =>
  Memory.eq_of_read_eq m hm hn h

/-! ### Who stores, and what is fetched next -/

/-- Settles O27: a fault of the fetch stores nothing, and only two effects write memory. -/
theorem onlyPushAndCallStore : Obligations.OnlyPushAndCallStore := by
  intro s t a h hne
  obtain ⟨-, ⟨e, -, rfl⟩ | ⟨i, hf, he⟩⟩ := step_next h
  · exact absurd rfl hne
  · obtain e | ⟨r, v, hi, e⟩ := he.mem_cases <;> rw [e] at hne
    · exact absurd rfl hne
    · refine ⟨by_contra fun ha => hne (Memory.read_write_ne _ _ _ _ ha), regByte r, ?_⟩
      exact hi.imp (fun e => hf.trans (congrArg _ e)) (fun e => hf.trans (congrArg _ e))

/-- The byte at a `pc` inside memory is what the machine fetches next. -/
theorem fetchesNext_of_read {t : State} {b : Byte} (hp : t.pc.toNat < 256) (hb : t.mem.read t.pc.toNat = b) :
    fetchesNext t b := by
  subst hb
  refine ⟨fetchByte_ok t [] hp, fun i => fetchWith_ok_opcode, fun hr => ⟨step_of_unknown_opcode hr hp, fun hb => ?_⟩⟩
  rw [hb]
  exact step_of_hlt_opcode hr hp hb

/-- Settles O28: the stored byte stands at SP - 1, which `pc` is when the condition of the second clause holds. -/
theorem storedByteIsFetchedNext : Obligations.StoredByteIsFetchedNext := by
  intro s r hm
  have hsp := s.decSp.sp.isLt
  refine ⟨⟨_, exec_of_effect (.push r), ?pushed⟩, ⟨_, exec_of_effect (.call r), ?called⟩⟩
  case pushed =>
    have hread := afterPush_mem_read hm (s.decSp.reg r).toNat
    rw [trunc8_byte_toNat] at hread
    refine ⟨fun bs => (fetchByte_ok _ bs hsp).trans (congrArg _ hread), fun hpc => ?_⟩
    have hpc' : (s.pc + 2).toNat = s.decSp.sp.toNat := by rw [pc_add_two_toNat]; omega
    exact fetchesNext_of_read (hpc'.trans_lt hsp) (hpc' ▸ hread)
  case called =>
    have hread := afterPush_mem_read hm (s.pc.toNat + 2)
    refine ⟨fun bs => (fetchByte_ok _ bs hsp).trans (congrArg _ hread), fun hr => ?_⟩
    have hpc : (zext9 (s.decSp.reg r)).toNat = s.decSp.sp.toNat := by rw [zext9_toNat, decSp_reg_eq, hr]
    exact fetchesNext_of_read (hpc.trans_lt hsp) (hpc ▸ hread)

/-! ### Stack and call laws -/

theorem exec_keeps_mem_wf {i : Instr} {s t : State} (hm : s.mem.wf = true) (h : exec i s = .next t) : t.mem.wf = true :=
  (effect_of_exec h).mem_wf hm

/-- PUSH of a register other than 7, with the stack pointer compared as a byte and the canonical form kept (R150, R151). -/
theorem push_law {s : State} (hm : s.mem.wf = true) {a : RegIdx} (ha : a ≠ 7) :
    ∃ t, exec (.push (regByte a)) s = .next t ∧ t.mem.wf = true ∧ t.sp = s.decSp.sp ∧ sameRegsBut [7] s t ∧
      t.mem.read t.sp.toNat = s.reg a ∧ sameMemBut [t.sp.toNat] s t := by
  obtain ⟨t, ht, hsp, hregs, hstored, hmem, -⟩ := pushDecrementsThenStores s a
  have hsp : t.sp = s.decSp.sp := BitVec.eq_of_toNat_eq (hsp.trans (sp_decSp_toNat s).symm)
  refine ⟨t, ht, exec_keeps_mem_wf hm ht, hsp, hregs, ?_, hsp ▸ hmem⟩
  rw [hsp, hstored hm, if_neg ha]

/-- POP to a register other than 7, with the stack pointer compared as a byte (R150, R152). -/
theorem pop_law (s : State) {b : RegIdx} (hb : b ≠ 7) :
    ∃ t, exec (.pop (regByte b)) s = .next t ∧ t.reg b = s.mem.read s.sp.toNat ∧ t.sp = s.sp + 1 ∧
      sameRegsBut [b, 7] s t ∧ sameMemBut [] s t := by
  obtain ⟨t, ht, hpop, -, hregs, hmem, -⟩ := popLoadsThenIncrements s b
  obtain ⟨hload, hsp⟩ := hpop hb
  exact ⟨t, ht, hload, BitVec.eq_of_toNat_eq (hsp.trans (byte_succ_toNat s.sp).symm), hregs, hmem⟩

/-- SP one down and one up again is SP (R150; decision D3). -/
theorem decSp_sp_add_one (s : State) : s.decSp.sp + 1 = s.sp := by rw [sp_decSp, BitVec.sub_add_cancel]

/-- Settles O36, from the laws of PUSH and of POP. -/
theorem pushThenPopIsARoundTrip : Obligations.PushThenPopIsARoundTrip := by
  intro s a b hm ha hb
  obtain ⟨t, ht, -, htsp, htregs, htop, htmem⟩ := push_law hm ha
  obtain ⟨u, hu, hload, husp, huregs, humem⟩ := pop_law t hb
  rw [← htsp]
  refine ⟨t, u, ht, hu, hload.trans htop, fun q hq => ?regs, (humem _ nofun).trans htop,
    fun c hc => (humem c nofun).trans (htmem c hc)⟩
  case regs =>
    by_cases h7 : q = 7
    · subst h7
      exact husp.trans (htsp ▸ decSp_sp_add_one s)
    · exact (huregs q (by simpa [h7] using hq)).trans (htregs q (by simpa using h7))

/-- Settles O37: the second POP reads the cell of the first PUSH, which the second PUSH, one below, left alone. -/
theorem stackIsLastInFirstOut : Obligations.StackIsLastInFirstOut := by
  intro s a b c d hm ha hb hc hd hcd
  obtain ⟨t1, h1, hm1, hsp1, hregs1, htop1, -⟩ := push_law hm ha
  obtain ⟨t2, h2, -, hsp2, -, htop2, hmem2⟩ := push_law hm1 hb
  obtain ⟨t3, h3, hload3, hsp3, -, hmem3⟩ := pop_law t2 hc
  obtain ⟨t4, h4, hload4, hsp4, hregs4, -⟩ := pop_law t3 hd
  have hsp31 : t3.sp = t1.sp := by rw [hsp3, hsp2, decSp_sp_add_one]
  have hbelow : t1.sp.toNat ≠ t2.sp.toNat := by
    rw [hsp2, sp_decSp_toNat]
    omega
  refine ⟨t1, t2, t3, t4, h1, h2, h3, h4, ?last, ?first, ?sp⟩
  case last =>
    calc t4.reg c = t3.reg c := hregs4 c (by simp [hc, hcd])
      _ = t2.mem.read t2.sp.toNat := hload3
      _ = t1.reg b := htop2
      _ = s.reg b := hregs1 b (by simpa using hb)
  case first =>
    calc t4.reg d = t3.mem.read t3.sp.toNat := hload4
      _ = t2.mem.read t1.sp.toNat := by rw [hmem3 _ nofun, hsp31]
      _ = t1.mem.read t1.sp.toNat := hmem2 _ (by simpa using hbelow)
      _ = s.reg a := htop1
  case sp => rw [hsp4, hsp31, hsp1, decSp_sp_add_one]

/-- Settles O38, from the laws of CALL and of RET. -/
theorem retReturnsPastTheCall : Obligations.RetReturnsPastTheCall := by
  intro s r hm hpc
  obtain ⟨t, ht, htsp, -, hstored, -⟩ := callPushesTheReturnAddress s r
  have htsp : t.sp = s.decSp.sp := BitVec.eq_of_toNat_eq (htsp.trans (sp_decSp_toNat s).symm)
  refine ⟨t, ht, fun u husp hsame => ?_⟩
  obtain ⟨v, hv, hvpc, hvsp, -⟩ := retPopsThePc u
  refine ⟨v, hv, ?pc, ?sp⟩
  case pc =>
    rw [hvpc, hsame, htsp, hstored hm]
    omega
  case sp =>
    calc v.sp = u.sp + 1 := BitVec.eq_of_toNat_eq (hvsp.trans (byte_succ_toNat u.sp).symm)
      _ = s.sp := by rw [husp, htsp, decSp_sp_add_one]

end Sys2Proof.Machine
end

section
/-! What flows where: flags, output, the halt record and the opcode map (10_state.md sections 4 to 6; 30_encoding.md section 3). -/

namespace Sys2Proof.Machine

/-! ### Flags -/

/-- Every flag that is 1 in `f` is 1 in `g`. -/
def Flags.le (f g : Flags) : Prop := (f.e = true → g.e = true) ∧ (f.l = true → g.l = true) ∧ (f.g = true → g.g = true)

theorem Flags.le_refl (f : Flags) : f.le f := ⟨id, id, id⟩

theorem Flags.le_trans {f g h : Flags} (h1 : f.le g) (h2 : g.le h) : f.le h := by
  obtain ⟨e1, l1, g1⟩ := h1
  obtain ⟨e2, l2, g2⟩ := h2
  exact ⟨e2 ∘ e1, l2 ∘ l1, g2 ∘ g1⟩

/-- COMPARE clears no flag (R30, R137). -/
theorem Flags.le_compare (f : Flags) (a b : Byte) : f.le (f.compare a b) := by
  obtain h | h | h := compare_sets_one_flag f a b <;> rw [h] <;> simp [Flags.le]

theorem step_flags_le {s t : State} (h : step s = .next t) : s.fl.le t.fl := by
  obtain ⟨-, ⟨e, -, rfl⟩ | ⟨i, -, he⟩⟩ := step_next h
  · exact s.fl.le_refl
  · obtain e | ⟨a, b, -, e⟩ := he.fl_cases <;> rw [e]
    · exact s.fl.le_refl
    · exact s.fl.le_compare _ _

/-- Settles O29: no step clears a flag, and two compares of unequal registers set the two orders' flags. -/
theorem flagsAreNeverCleared : Obligations.FlagsAreNeverCleared := by
  refine ⟨run_induction (fun s t => s.fl.le t.fl) (fun s => s.fl.le_refl) (fun _ _ _ => Flags.le_trans)
    (fun _ _ => step_flags_le), ?twoCompares⟩
  case twoCompares =>
    intro s t u a b hlt ht hu
    rw [exec_cmp_regByte] at ht hu
    cases ht
    cases hu
    rw [setPc_fl, setFlags_fl, setPc_reg, setPc_reg, setFlags_reg, setFlags_reg, compare_of_gt _ hlt, setPc_fl, setFlags_fl,
      compare_of_lt _ hlt]

/-- An instruction other than JEQ and JNE has the same effect whatever the flags hold, but for the flags themselves (R29). -/
theorem Effect.setFlags {m : Opcode → Byte} {s t : State} {i : Instr} (h : Effect m s i t) (f : Flags) (hq : i.opcode ≠ .jeq)
    (hn : i.opcode ≠ .jne) : ∃ u, Effect m (s.setFlags f) i u ∧ u.setFlags t.fl = t := by
  cases h with
  | badRegister i b h => exact ⟨_, .badRegister i b h, rfl⟩
  | hlt => exact ⟨_, .hlt, rfl⟩
  | ldi r v => exact ⟨_, .ldi r v, rfl⟩
  | prn r => exact ⟨_, .prn r, rfl⟩
  | add a b => exact ⟨_, .add a b, rfl⟩
  | mult a b => exact ⟨_, .mult a b, rfl⟩
  | cmp a b => exact ⟨_, .cmp a b, rfl⟩
  | push r => exact ⟨_, .push r, rfl⟩
  | pop r => exact ⟨_, .pop r, rfl⟩
  | call r => exact ⟨_, .call r, rfl⟩
  | ret => exact ⟨_, .ret, rfl⟩
  | jmp r => exact ⟨_, .jmp r, rfl⟩
  | jeq r => exact absurd rfl hq
  | jne r => exact absurd rfl hn

theorem branch_setFlags (taken : Bool) (r : RegIdx) (s : State) (f : Flags) :
    branch taken r (s.setFlags f) = (branch taken r s).setFlags f := rfl

/-- JEQ and JNE read no flag but `FL.E` (R29). -/
theorem Effect.setFlags_of_branch {m : Opcode → Byte} {s t : State} {i : Instr} (h : Effect m s i t) {f : Flags}
    (hi : i.opcode = .jeq ∨ i.opcode = .jne) (hf : f.e = s.fl.e) : Effect m (s.setFlags f) i (t.setFlags f) := by
  cases h with
  | badRegister i b h => exact .badRegister i b h
  | jeq r => rw [← hf, ← branch_setFlags]; exact .jeq r
  | jne r => rw [← hf, ← branch_setFlags]; exact .jne r
  | hlt | ldi | prn | add | mult | cmp | push | pop | call | ret | jmp => simp [Instr.opcode] at hi

/-- Settles O30: the effects that write the flags, and those that read them. -/
theorem flagsAreWrittenByCmpAndReadByBranches : Obligations.FlagsAreWrittenByCmpAndReadByBranches := by
  refine ⟨fun i s t h hne => ?written, fun i s t f hq hn h => ?notRead, fun i s t f hi hf h => ?readByBranches⟩
  case written =>
    obtain e | ⟨a, b, rfl, e⟩ := (effect_of_exec h).fl_cases
    · exact absurd e hne
    · rw [e]
      exact ⟨rfl, compare_sets_one_flag ..⟩
  case notRead =>
    obtain ⟨u, hu, e⟩ := (effect_of_exec h).setFlags f hq hn
    exact ⟨u, exec_of_effect hu, e⟩
  case readByBranches => exact exec_of_effect ((effect_of_exec h).setFlags_of_branch hi hf)

/-! ### Output and the halt record -/

/-- Settles O31: a fault of the fetch emits nothing, and one effect writes OUT. -/
theorem onlyPrnAppendsToOut : Obligations.OnlyPrnAppendsToOut := by
  intro s t h
  obtain ⟨-, ⟨e, -, rfl⟩ | ⟨i, hf, he⟩⟩ := step_next h
  · exact .inl rfl
  · exact he.out_cases.imp_right fun ⟨r, hi, ho⟩ => ⟨r, hf.trans (congrArg _ hi), ho⟩

/-- The state with other OUT, CAUSE and DIAG. -/
def State.withRecord (s : State) (o : List Byte) (c : Cause) (d : Diag) : State := { s with out := o, cause := c, diag := d }

/-- From `s` to `t` and from `s'` to `u` the same bytes are emitted, and `t` and `u` agree outside OUT, CAUSE and DIAG. -/
def sameButRecord (s t s' u : State) : Prop :=
  ∃ l, t.out = s.out ++ l ∧ u.out = s'.out ++ l ∧ u.x = t.x ∧ u.pc = t.pc ∧ u.fl = t.fl ∧ u.mem = t.mem ∧ u.run = t.run

/-- Two moves that emit nothing and end in states that differ in OUT, CAUSE and DIAG alone. -/
theorem sameButRecord_of_silent {s t s' u : State} (ht : t.out = s.out) (hu : u = t.withRecord s'.out u.cause u.diag) :
    sameButRecord s t s' u := by
  rw [hu]
  exact ⟨[], by rw [ht, List.append_nil], by rw [List.append_nil]; rfl, rfl, rfl, rfl, rfl, rfl⟩

/-- No instruction reads OUT, CAUSE or DIAG (R34, R41). -/
theorem Effect.withRecord {m : Opcode → Byte} {s t : State} {i : Instr} (h : Effect m s i t) (o : List Byte) (c : Cause)
    (d : Diag) : ∃ u, Effect m (s.withRecord o c d) i u ∧ sameButRecord s t (s.withRecord o c d) u := by
  cases h with
  | badRegister i b h => exact ⟨_, .badRegister i b h, sameButRecord_of_silent rfl rfl⟩
  | hlt => exact ⟨_, .hlt, sameButRecord_of_silent rfl rfl⟩
  | ldi r v => exact ⟨_, .ldi r v, sameButRecord_of_silent rfl rfl⟩
  | prn r => exact ⟨_, .prn r, [s.reg r], rfl, rfl, rfl, rfl, rfl, rfl, rfl⟩
  | add a b => exact ⟨_, .add a b, sameButRecord_of_silent rfl rfl⟩
  | mult a b => exact ⟨_, .mult a b, sameButRecord_of_silent rfl rfl⟩
  | cmp a b => exact ⟨_, .cmp a b, sameButRecord_of_silent rfl rfl⟩
  | push r => exact ⟨_, .push r, sameButRecord_of_silent rfl rfl⟩
  | pop r => exact ⟨_, .pop r, sameButRecord_of_silent rfl rfl⟩
  | call r => exact ⟨_, .call r, sameButRecord_of_silent rfl rfl⟩
  | ret => exact ⟨_, .ret, sameButRecord_of_silent rfl rfl⟩
  | jmp r => exact ⟨_, .jmp r, sameButRecord_of_silent rfl rfl⟩
  | jeq r => exact ⟨_, .jeq r, sameButRecord_of_silent rfl rfl⟩
  | jne r => exact ⟨_, .jne r, sameButRecord_of_silent rfl rfl⟩

/-- A fetch reads `pc` and memory alone. -/
theorem fetch_withRecord (s : State) (o : List Byte) (c : Cause) (d : Diag) : fetch (s.withRecord o c d) = fetch s := rfl

/-- A step from a state with other OUT, CAUSE and DIAG. -/
theorem step_withRecord {s t : State} (h : step s = .next t) (o : List Byte) (c : Cause) (d : Diag) :
    ∃ u, step (s.withRecord o c d) = .next u ∧ sameButRecord s t (s.withRecord o c d) u := by
  obtain ⟨hr, hcases⟩ := step_next h
  have hr' : (s.withRecord o c d).run = .running := hr
  obtain ⟨e, hf, rfl⟩ | ⟨i, hf, he⟩ := hcases
  · rw [← fetch_withRecord s o c d] at hf
    exact ⟨_, step_of_fetch_error hr' hf, sameButRecord_of_silent rfl rfl⟩
  · obtain ⟨u, hu, hsame⟩ := he.withRecord o c d
    rw [← fetch_withRecord s o c d] at hf
    exact ⟨u, (step_of_fetch_ok hr' hf).trans (exec_of_effect hu), hsame⟩

/-- Settles O32, by the step of the state with the other record. -/
theorem outputAndDiagnosticAreNeverRead : Obligations.OutputAndDiagnosticAreNeverRead := by
  intro s t o c d h
  obtain ⟨u, hu, l, hsame⟩ := step_withRecord h o c d
  exact ⟨u, l, hu, hsame⟩

/-! ### The opcode map -/

theorem find_bad_operand_of_wellFormed {i : Instr} (h : i.wellFormed = true) :
    (i.regOperands.find? fun c => decide (8 ≤ c.toNat)) = none := by
  simpa [Instr.wellFormed] using h

/-- Under another map an instruction has the same effect, but for the opcode byte recorded by a halt (R86, R185). -/
theorem Effect.change_map {m : Opcode → Byte} {s t : State} {i : Instr} (h : Effect m s i t) (n : Opcode → Byte) :
    ∃ u, Effect n s i u ∧ u = { t with diag := { t.diag with opcode := u.diag.opcode } } ∧
      (i.wellFormed = true → i ≠ .hlt → u = t) := by
  cases h with
  | badRegister i b h =>
    refine ⟨_, .badRegister i b h, rfl, fun hw _ => ?_⟩
    rw [find_bad_operand_of_wellFormed hw] at h
    cases h
  | hlt => exact ⟨_, .hlt, rfl, fun _ hne => absurd rfl hne⟩
  | ldi r v => exact ⟨_, .ldi r v, rfl, fun _ _ => rfl⟩
  | prn r => exact ⟨_, .prn r, rfl, fun _ _ => rfl⟩
  | add a b => exact ⟨_, .add a b, rfl, fun _ _ => rfl⟩
  | mult a b => exact ⟨_, .mult a b, rfl, fun _ _ => rfl⟩
  | cmp a b => exact ⟨_, .cmp a b, rfl, fun _ _ => rfl⟩
  | push r => exact ⟨_, .push r, rfl, fun _ _ => rfl⟩
  | pop r => exact ⟨_, .pop r, rfl, fun _ _ => rfl⟩
  | call r => exact ⟨_, .call r, rfl, fun _ _ => rfl⟩
  | ret => exact ⟨_, .ret, rfl, fun _ _ => rfl⟩
  | jmp r => exact ⟨_, .jmp r, rfl, fun _ _ => rfl⟩
  | jeq r => exact ⟨_, .jeq r, rfl, fun _ _ => rfl⟩
  | jne r => exact ⟨_, .jne r, rfl, fun _ _ => rfl⟩

/-- Settles O47, by the effect under the other map. -/
theorem effectDoesNotDependOnTheOpcodeMap : Obligations.EffectDoesNotDependOnTheOpcodeMap := by
  intro m n i s
  obtain ⟨t, ht, he⟩ := execWith_effect m i s
  obtain ⟨u, hu, hsame⟩ := he.change_map n
  exact ⟨t, u, ht, execWith_of_effect hu, hsame⟩

/-- The step of this hardware is the step under its map: the same fetch, and the same dispatch. -/
theorem step_eq_stepWith (s : State) : step s = stepWith opc s := by
  obtain ⟨hh, hs⟩ | ⟨hr, e, hf, hs⟩ | ⟨hr, i, t, hf, -⟩ := step_cases s
  · rw [hs, stepWith, hh]
  · rw [hs, stepWith_of_fetch_error hr hf]
  · rw [step_of_fetch_ok hr hf, stepWith_of_fetch_ok hr hf, exec_arms]

/-- Settles O46, arm by arm, and outcome by outcome of the step. -/
theorem hardwareIsTheMachineAtTheDefaultMap : Obligations.HardwareIsTheMachineAtTheDefaultMap :=
  ⟨exec_arms, step_eq_stepWith⟩

end Sys2Proof.Machine
end
